-- ==== Sys2Proof/Word.lean ====
section
/-!
DEFINITION. The two word types: bit vectors (00_scope.md R7) and the bytes of the host's queue.
-/
namespace Sys2Proof

/-- A bit vector in list form (00_scope.md R12): element 0 first. Its width is its length, and the
width 0 is the empty list (R7). The widths of this block are configuration constants, not type
constants, so the width of each port is an invariant and not part of the type. -/
abbrev Bits := List Bool

/-- One byte of the host's queue of pending operations. -/
abbrev Byte := BitVec 8

end Sys2Proof
end

