-- ==== Sys2Proof/Config.lean ====
section
/-!
DEFINITION. What an implementation fixes (00_scope.md R5, 92_eei_decisions.md D2), and the
configuration of the block that the model's reset state holds (assumption log 2 and 3).
-/
namespace Sys2Proof.Config

/-- Whether an implementation with the cap `cap` on DATA_LEN can build a block of `d` data bits
(00_scope.md R5: the cap only decides which configurations can be built). `none`: uncapped. -/
def capAdmits (cap : Option Nat) (d : Nat) : Bool :=
  match cap with
  | none => true
  | some c => decide (d ≤ c)

/-- DATA_LEN of the reset block. DESIGN CHOICE, unsafe (log 2): the spec has no reset, R170. -/
abbrev resetDataLen : Nat := 0

/-- EXTENDED of the reset block. DESIGN CHOICE, unsafe (log 2): the spec has no reset, R170. -/
abbrev resetExtended : Bool := false

/-- MAX_DATA_LEN of the reset block: no cap. DESIGN CHOICE, unsafe (log 3): D2 leaves it OPEN. -/
abbrev resetMaxDataLen : Option Nat := none

end Sys2Proof.Config
end

