-- ==== Sys2Proof/Machine/Operands.lean ====
section
/-!
DEFINITION. The operand forms of the block: bit vectors and numbers (00_scope.md R7 to R9, R12),
positions and indices (R11), the classes of positions and the data placement (30_encoding.md R61,
R62, R68).
-/
namespace Sys2Proof.Machine

/-- Element `j` of a bit vector. Every rule reads inside the width; outside it the answer is
`false` (log 12). -/
def elem (v : Bits) (j : Nat) : Bool := v.getD j false

/-- The low `w` bits of `x` as a bit vector, element 0 least significant (00_scope.md R7,
20_memory.md R43). -/
def natToBits : Nat → Nat → Bits
  | 0, _ => []
  | w + 1, x => (x % 2 == 1) :: natToBits w (x / 2)

/-- The unsigned number a bit vector stands for, element 0 least significant (20_memory.md R43);
the number of its port form (00_scope.md R12). -/
def bitsToNat : Bits → Nat
  | [] => 0
  | b :: bs => b.toNat + 2 * bitsToNat bs

/-- The xor of all elements, 0 for the empty vector (00_scope.md R8). -/
def xorAll : Bits → Bool
  | [] => false
  | b :: bs => b ^^ xorAll bs

/-- The elementwise xor of two vectors of one width (00_scope.md R8). -/
def xorBits (a b : Bits) : Bits := List.zipWith (fun x y => x ^^ y) a b

/-- The number of elements that are 1 (00_scope.md R9). -/
def popcount (v : Bits) : Nat := v.count true

/-- The vector with element `j` inverted (30_encoding.md R71, FLIP). -/
def flipBit (v : Bits) (j : Nat) : Bits := v.set j (!elem v j)

/-- The vector with every listed element inverted, one after another (60_exceptions.md R160). -/
def flipBits (v : Bits) (js : List Nat) : Bits := js.foldl flipBit v

/-- `x` is a power of two (00_scope.md R9): `isPow2 0` is false, `isPow2 1` true. -/
def isPow2 (x : Nat) : Bool := x != 0 && 2 ^ Nat.log2 x == x

/-- The upward search of `clog2`, from `w` on, at most `fuel` steps. -/
def clog2From : Nat → Nat → Nat → Nat
  | 0, w, _ => w
  | fuel + 1, w, x => if x ≤ 2 ^ w then w else clog2From fuel (w + 1) x

/-- The least `w` with `2^w ≥ x` (00_scope.md R9). At most `x` steps are needed. -/
def clog2 (x : Nat) : Nat := clog2From x 0 x

/-- The K-bit reversal of `x` (00_scope.md R9). -/
def bitrev (k x : Nat) : Nat := bitsToNat (natToBits k x).reverse

/-- The upward search of PLAN (40_construction.md R80), from `p` on, at most `fuel` steps. -/
def parityCountFrom : Nat → Nat → Nat → Nat
  | 0, p, _ => p
  | fuel + 1, p, d => if 2 ^ p < d + p + 1 then parityCountFrom fuel (p + 1) d else p

/-- The least `p` with `2^p ≥ d + p + 1`: PLAN's P (40_construction.md R80), and the `Pfun` of
30_encoding.md R62. At most `d + 1` steps are needed. -/
def parityCount (d : Nat) : Nat := parityCountFrom (d + 1) 0 d

/-- The positions 1..M in order (00_scope.md R11). -/
def positions (m : Nat) : List Nat := (List.range m).map (· + 1)

/-- The data positions of a codeword whose non-global part has `len` bits, that is M − e: the
positions in 1..len that are not powers of two (30_encoding.md R61). -/
def dataPositions (len : Nat) : List Nat := (positions len).filter (fun q => !isPow2 q)

/-- The position of data bit `t` (30_encoding.md R62, closed form). -/
def dataPos (t : Nat) : Nat := t + 1 + parityCount (t + 1)

/-- The xor of the positions of the set bits among the first `len` indices (42_decode.md R126). -/
def xorPositions (len : Nat) (cw : Bits) : Nat :=
  (List.range len).foldl (fun x j => if elem cw j then x ^^^ (j + 1) else x) 0

end Sys2Proof.Machine
end

