-- ==== Sys2Proof/Syntax.lean ====
section
/-!
DEFINITION. The five operations of opcode_table.json, one constructor a row (30_encoding.md R70).
-/
namespace Sys2Proof

/-- An operation together with what the host supplies for it. The elaboration operations take the
configuration (PLAN) or nothing but the constants built so far; the two run-time operations take
the value that the host drives on their input port. -/
inductive Instr where
  /-- PLAN (40_construction.md R80 to R82): DATA_LEN and EXTENDED. -/
  | plan (dataLen : Nat) (extended : Bool)
  /-- BUILD_MATRIX (40_construction.md R85). -/
  | buildMatrix
  /-- BUILD_TABLE (40_construction.md R90). -/
  | buildTable
  /-- ENCODE (41_encode.md R100): the value driven on `enc_data`. -/
  | encode (data : Bits)
  /-- DECODE (42_decode.md R120): the value driven on `dec_cw`. -/
  | decode (cw : Bits)
deriving DecidableEq, Repr

end Sys2Proof
end

