-- ==== Sys2Proof/Decode.lean ====
section
/-!
DEFINITION. The bytes that stand for an operation in the host's queue, their decoder and encoder.

The block has no instruction words (30_encoding.md R60) and opcode_table.json gives no row any
bits. The byte form is the model's own: DESIGN CHOICE (log 1). One selector byte, in the table's
order of rows, then the operands; a vector operand is its width and its port form number
(00_scope.md R12), since an ENCODE or DECODE is encoded by the port form values driven
(95_test_vectors.md L3). A number is written in groups of seven bits, least significant first,
with bit 7 set on every byte but the last, and has one spelling.
-/
namespace Sys2Proof

/-- Why bytes stand for no operation. -/
inductive DecodeError where
  /-- The bytes end inside an operation. -/
  | truncated
  /-- No operation has this selector byte. -/
  | unknownSelector (selector : Byte)
  /-- EXTENDED is a bit (00_scope.md R5), and this byte is neither 0 nor 1. -/
  | extendedNotABit (value : Byte)
  /-- A number's last group of bits is zero although it is not its first. -/
  | numberNotCanonical
  /-- A vector's port form number does not fit its width. -/
  | valueTooWide (width value : Nat)
deriving DecidableEq, Repr

/-- The selector byte of an operation: the place of its row in opcode_table.json (log 1). -/
def selector : Instr → Byte
  | .plan _ _ => 0
  | .buildMatrix => 1
  | .buildTable => 2
  | .encode _ => 3
  | .decode _ => 4

/-- A number from the front of the bytes, and the bytes after it. -/
def decodeNumber : List Byte → Except DecodeError (Nat × List Byte)
  | [] => .error .truncated
  | b :: rest =>
    if b.toNat < 128 then .ok (b.toNat, rest)
    else
      match decodeNumber rest with
      | .error e => .error e
      | .ok (high, after) =>
        if high = 0 then .error .numberNotCanonical
        else .ok (b.toNat - 128 + 128 * high, after)

/-- A bit vector from the front of the bytes: its width, then its port form number. -/
def decodeVector (bytes : List Byte) : Except DecodeError (Bits × List Byte) :=
  match decodeNumber bytes with
  | .error e => .error e
  | .ok (width, afterWidth) =>
    match decodeNumber afterWidth with
    | .error e => .error e
    | .ok (value, after) =>
      if value < 2 ^ width then .ok (Machine.natToBits width value, after)
      else .error (.valueTooWide width value)

/-- The operands of PLAN: the EXTENDED bit, then DATA_LEN. -/
def decodePlan : List Byte → Except DecodeError (Instr × List Byte)
  | [] => .error .truncated
  | b :: rest =>
    if 1 < b.toNat then .error (.extendedNotABit b)
    else
      match decodeNumber rest with
      | .error e => .error e
      | .ok (d, after) => .ok (.plan d (b.toNat == 1), after)

/-- The operation at the front of the bytes and the bytes after it, or why there is none. -/
def decode : List Byte → Except DecodeError (Instr × List Byte)
  | [] => .error .truncated
  | b :: rest =>
    match b.toNat with
    | 0 => decodePlan rest
    | 1 => .ok (.buildMatrix, rest)
    | 2 => .ok (.buildTable, rest)
    | 3 =>
      match decodeVector rest with
      | .error e => .error e
      | .ok (data, after) => .ok (.encode data, after)
    | 4 =>
      match decodeVector rest with
      | .error e => .error e
      | .ok (cw, after) => .ok (.decode cw, after)
    | _ => .error (.unknownSelector b)

/-- The groups of a number, at most `fuel` of them before the last. -/
def encodeNumberFrom : Nat → Nat → List Byte
  | 0, x => [BitVec.ofNat 8 x]
  | fuel + 1, x =>
    if x < 128 then [BitVec.ofNat 8 x]
    else BitVec.ofNat 8 (128 + x % 128) :: encodeNumberFrom fuel (x / 128)

/-- The bytes of a number. `x` itself bounds the number of groups. -/
def encodeNumber (x : Nat) : List Byte := encodeNumberFrom x x

/-- The bytes of a bit vector. -/
def encodeVector (v : Bits) : List Byte :=
  encodeNumber v.length ++ encodeNumber (Machine.bitsToNat v)

/-- The bytes of an operation's operands. -/
def encodeOperands : Instr → List Byte
  | .plan d e => BitVec.ofNat 8 e.toNat :: encodeNumber d
  | .buildMatrix => []
  | .buildTable => []
  | .encode data => encodeVector data
  | .decode cw => encodeVector cw

/-- The bytes of an operation. -/
def encode (i : Instr) : List Byte := selector i :: encodeOperands i

/-- The bytes of a table word of `nbits` bits, its least significant byte first, then the bytes
above it, which are zero. Three zero bytes end every operation whose given bytes are zero or stop
early (the longest such is PLAN from its selector on). -/
def tableBytes (nbits w : Nat) : List Byte :=
  (List.range ((nbits + 7) / 8)).map (fun j => BitVec.ofNat 8 (w >>> (8 * j))) ++
    List.replicate 3 0

/-- The operation the decoder reads from a table word (the host's question about a row). -/
def decodeTableWord (nbits w : Nat) : Option Instr :=
  match decode (tableBytes nbits w) with
  | .error _ => none
  | .ok (i, _) => some i

/-- The bytes of a table word that its operation takes; all of them where it is no operation. -/
def fetchBytes (nbits w : Nat) : List Byte :=
  match decode (tableBytes nbits w) with
  | .error _ => tableBytes nbits w
  | .ok (_, rest) => (tableBytes nbits w).take ((tableBytes nbits w).length - rest.length)

end Sys2Proof
end

