-- ==== Sys2Proof/WellFormed.lean ====
section
/-!
DEFINITION. Which operations a host can present to a block of a given shape. Every value of a
port is legal (30_encoding.md R69), so the checks are the port widths (60_exceptions.md R153) and
the implementation's cap (00_scope.md R5).
-/
namespace Sys2Proof

/-- What decides whether an operation fits a block: the cap, and the widths of the input ports. -/
structure Shape where
  maxDataLen : Option Nat
  /-- The width d of `enc_data`. -/
  dataLen : Nat
  /-- The width M of `dec_cw`. -/
  codewordLen : Nat
deriving DecidableEq, Repr

/-- The operation fits a block of that shape. -/
def Instr.wellFormed (shape : Shape) : Instr → Bool
  | .plan d _ => Config.capAdmits shape.maxDataLen d
  | .buildMatrix => true
  | .buildTable => true
  | .encode data => data.length == shape.dataLen
  | .decode cw => cw.length == shape.codewordLen

end Sys2Proof
end

