-- ==== Sys2Proof/Machine/State.lean ====
section
/-!
DEFINITION. The state of the block (10_state.md R20, R25, R32), the reasons a step can stop, and
the state the model starts from (log 2).
-/
namespace Sys2Proof.Machine

/-- The cause of a ConfigurationFault with the information recorded (60_exceptions.md R151). -/
inductive ConfigurationCause where
  /-- CF_SYNDROME_RANGE: column `column` has the syndrome `value`, not below 2^K. -/
  | syndromeRange (column value : Nat)
  /-- CF_SYNDROME_ZERO: column `column` has the syndrome 0. -/
  | syndromeZero (column : Nat)
  /-- CF_SYNDROME_DUP: column `column` has the syndrome `value` of the column `earlier`. -/
  | syndromeDup (column earlier value : Nat)
deriving DecidableEq, Repr

/-- The one fault of the block. -/
inductive Fault where
  /-- Raised by BUILD_TABLE at elaboration when a check fails (40_construction.md R92,
  60_exceptions.md R151): no block exists afterwards. Safe: the spec's own fault. -/
  | configurationFault (cause : ConfigurationCause)
deriving DecidableEq, Repr

/-- Why an operation has no meaning where the host presents it. Every one is safe: the model
stops, and says nothing of what would follow. -/
inductive Refusal where
  /-- An operation of the table without a meaning yet; raised by `exec` only. Safe. -/
  | notModelled (mnemonic : String)
  /-- Raised by `step`: the pending bytes stand for no operation (log 1). Safe. -/
  | undecodable (why : DecodeError)
  /-- Raised by PLAN: DATA_LEN is over the implementation's cap, so this configuration cannot be
  built (00_scope.md R5; log 3). Safe. -/
  | dataLenOverCap (dataLen cap : Nat)
  /-- Raised by BUILD_TABLE when BUILD_MATRIX has not run: it must see the finished matrix
  (70_reset_and_hazards.md R173; log 7). Safe. -/
  | matrixNotBuilt
  /-- Raised by ENCODE and DECODE before elaboration is complete (70_reset_and_hazards.md R173;
  log 7). Safe. -/
  | notElaborated
  /-- Raised by ENCODE and DECODE at the boundary to the ports: a vector of `got` elements for a
  port of width `want` (60_exceptions.md R153, 93_implementation_defined.md I4; log 6). Safe. -/
  | inputShape (got want : Nat)
deriving DecidableEq, Repr

/-- The parity-check matrix, row 0 first, each row in list form (10_state.md R26). -/
abbrev ParityMatrix := List Bits

/-- An entry of the syndrome-position ROM (10_state.md R28). `col` is held as a number; its width
POS_W is that of `RomEntry.word` (log 12). -/
structure RomEntry where
  hit : Bool
  col : Nat
deriving DecidableEq, Repr

/-- The syndrome-position ROM, entry 0 first (10_state.md R28). -/
abbrev Rom := List RomEntry

/-- The encoder side while its input is driven (10_state.md R25). -/
structure EncPorts where
  /-- `enc_data`, d bits. -/
  data : Bits
  /-- `enc_cw`, M bits. -/
  cw : Bits
deriving DecidableEq, Repr

/-- The decoder side while its input is driven (10_state.md R25). -/
structure DecPorts where
  /-- `dec_cw`, M bits. -/
  cw : Bits
  /-- `dec_kind`, 2 bits, coded by 30_encoding.md R64. -/
  kind : BitVec 2
  /-- `dec_pos`, POS_W bits. -/
  pos : Bits
  /-- `dec_syndrome`, K bits. -/
  syndrome : Bits
  /-- `dec_overall_parity`, 1 bit. -/
  overallParity : Bool
deriving DecidableEq, Repr

/-- The state of the block (10_state.md R32) and the host's queue (log 14). -/
structure State where
  /-- DATA_LEN, d (00_scope.md R5). -/
  dataLen : Nat
  /-- EXTENDED, e (00_scope.md R5). -/
  extended : Bool
  /-- MAX_DATA_LEN, the implementation's cap; `none` where there is none (R5, D2; log 3). -/
  maxDataLen : Option Nat
  /-- P, the number of non-extended parity bits (40_construction.md R80). -/
  p : Nat
  /-- N, the rows of the matrix (40_construction.md R81). -/
  n : Nat
  /-- M, the bits of a codeword (40_construction.md R81). -/
  m : Nat
  /-- K, the width of the syndrome (40_construction.md R82). -/
  k : Nat
  /-- POS_W, the width of `dec_pos` (10_state.md R24). -/
  posW : Nat
  /-- H; `none` until BUILD_MATRIX has run for this configuration (70_reset_and_hazards.md R173). -/
  matrix : Option ParityMatrix
  /-- The ROM; `none` until BUILD_TABLE has run for this configuration (R173). -/
  rom : Option Rom
  /-- The encoder side; `none` while the host has not driven `enc_data` (R171; log 5). -/
  enc : Option EncPorts
  /-- The decoder side; `none` while the host has not driven `dec_cw` (R171; log 5). -/
  dec : Option DecPorts
  /-- The operations the host has lined up, as bytes, the next one first (log 1, 14). -/
  pending : List Byte
deriving DecidableEq, Repr

/-- What an operation must fit to be presented to this block. -/
def State.shape (s : State) : Shape := ⟨s.maxDataLen, s.dataLen, s.m⟩

/-- The state the model starts from: an elaborated block (70_reset_and_hazards.md R170) of the
configuration d = 0, e = 0 (DESIGN CHOICE, log 2), uncapped (log 3), nothing driven (R171),
nothing pending (log 14). The sizes, the matrix and the ROM are the values that 40_construction.md
R80 to R93 and 10_state.md R24 give for that configuration. -/
def State.reset : State where
  dataLen := Config.resetDataLen
  extended := Config.resetExtended
  maxDataLen := Config.resetMaxDataLen
  p := 0
  n := 0
  m := 0
  k := 0
  posW := 1
  matrix := some []
  rom := some [⟨false, 0⟩]
  enc := none
  dec := none
  pending := []

end Sys2Proof.Machine
end

