-- ==== Sys2Proof/Machine/Ops.lean ====
section
/-!
DEFINITION. The shared operations: reading the constants (20_memory.md R41), the checks before an
operation, raising the block's one exception, and driving the ports (00_scope.md R10).
-/
namespace Sys2Proof.Machine

/-- What an operation answers. -/
abbrev Result := Host.Outcome State Fault Refusal

/-- Do `k` in the state that `r` gives, or stop as `r` stopped. -/
def andThen (r : Result) (k : State → Result) : Result :=
  match r with
  | .next s => k s
  | .fault e => .fault e
  | .refused e => .refused e

/-- `H[i][j]` (00_scope.md R10, 20_memory.md R41). Every rule reads inside N × M; outside it the
answer is `false` (log 12). -/
def cell (h : ParityMatrix) (i j : Nat) : Bool := elem (h.getD i []) j

/-- The sentinel "no single bit matches" (10_state.md R28, 30_encoding.md R66). -/
def sentinel : RomEntry := ⟨false, 0⟩

/-- The entry that says column `j` alone produces its syndrome (10_state.md R28). -/
def hitEntry (j : Nat) : RomEntry := ⟨true, j⟩

/-- `RomRead(a)` (00_scope.md R10, 20_memory.md R41). Every address DECODE forms is below 2^K;
outside the ROM the answer is the sentinel (log 12). -/
def romRead (rom : Rom) (a : Nat) : RomEntry := rom.getD a sentinel

/-- The layout of an entry: `col` in elements POS_W−1..0, `hit` in element POS_W
(30_encoding.md R66). -/
def RomEntry.word (posW : Nat) (entry : RomEntry) : Bits := natToBits posW entry.col ++ [entry.hit]

/-- Raise ConfigurationFault: the configuration is refused, and there is no state after it, so it
has no behaviour (60_exceptions.md R151). It is the block's only exception; nothing is saved, no
handler runs and nothing returns from it (R157). -/
def raiseConfigurationFault (cause : ConfigurationCause) : Result :=
  .fault (.configurationFault cause)

/-- Go on only where the implementation can build `d` data bits (00_scope.md R5; log 3). -/
def whenBuildable (s : State) (d : Nat) (k : Result) : Result :=
  match s.maxDataLen with
  | none => k
  | some cap => if d ≤ cap then k else .refused (.dataLenOverCap d cap)

/-- Go on with the matrix once it is built (70_reset_and_hazards.md R173; log 7). -/
def whenMatrixBuilt (s : State) (k : ParityMatrix → Result) : Result :=
  match s.matrix with
  | some h => k h
  | none => .refused .matrixNotBuilt

/-- Go on with the matrix and the ROM once elaboration is complete (70_reset_and_hazards.md R173;
log 7). -/
def whenElaborated (s : State) (k : ParityMatrix → Rom → Result) : Result :=
  match s.matrix, s.rom with
  | some h, some rom => k h rom
  | _, _ => .refused .notElaborated

/-- Go on only with a vector of the port's width (60_exceptions.md R153; log 6). -/
def whenShape (v : Bits) (width : Nat) (k : Result) : Result :=
  if v.length = width then k else .refused (.inputShape v.length width)

/-- The sizes that PLAN derives (40_construction.md R80 to R82, 10_state.md R24). -/
structure Sizes where
  p : Nat
  n : Nat
  m : Nat
  k : Nat
  posW : Nat
deriving DecidableEq, Repr

/-- A block whose sizes are planned and whose matrix and ROM are still to be built. Nothing of an
earlier block stays but the implementation's cap and the host's queue (log 4). -/
def State.withPlan (s : State) (d : Nat) (e : Bool) (z : Sizes) : State :=
  { s with
    dataLen := d, extended := e, p := z.p, n := z.n, m := z.m, k := z.k, posW := z.posW
    matrix := none, rom := none, enc := none, dec := none }

/-- The block with its matrix built. -/
def State.withMatrix (s : State) (h : ParityMatrix) : State := { s with matrix := some h }

/-- The block with its ROM filled. -/
def State.withRom (s : State) (rom : Rom) : State := { s with rom := some rom }

/-- The block with the encoder side driven (00_scope.md R10, `port <- v`). -/
def State.driveEnc (s : State) (ports : EncPorts) : State := { s with enc := some ports }

/-- The block with the decoder side driven. -/
def State.driveDec (s : State) (ports : DecPorts) : State := { s with dec := some ports }

/-- The host's queue set to these bytes (log 14). -/
def State.withPending (s : State) (bytes : List Byte) : State := { s with pending := bytes }

/-- Elaboration is complete: ENCODE and DECODE can be evaluated (70_reset_and_hazards.md R173). -/
def State.elaborated (s : State) : Bool := s.matrix.isSome && s.rom.isSome

end Sys2Proof.Machine
end

