-- ==== Sys2Proof/Machine/Flags.lean ====
section
/-!
DEFINITION. The block has no flags or condition codes (10_state.md R29). What stands in their
place are the checks DECODE computes in every evaluation and their classification: the overall
parity (42_decode.md R121), the syndrome (R120), the kind and its code (30_encoding.md R64), and
CLASSIFY (42_decode.md R122 to R124).
-/
namespace Sys2Proof.Machine

/-- The four diagnosis kinds (30_encoding.md R64). -/
inductive Kind where
  | noError
  | singleBitCorrectable
  | doubleBitDetected
  | indeterminate
deriving DecidableEq, Repr

/-- The code on `dec_kind` (30_encoding.md R64). -/
def Kind.code : Kind → BitVec 2
  | .noError => 0b00#2
  | .singleBitCorrectable => 0b01#2
  | .doubleBitDetected => 0b10#2
  | .indeterminate => 0b11#2

/-- The kind a host reads from `dec_kind`. -/
def Kind.ofCode (c : BitVec 2) : Kind :=
  if c = 0b00#2 then .noError
  else if c = 0b01#2 then .singleBitCorrectable
  else if c = 0b10#2 then .doubleBitDetected
  else .indeterminate

/-- The check of row `i`: the full dot product mod 2 over all M columns (42_decode.md R120). -/
def rowCheck (h : ParityMatrix) (m i : Nat) (cw : Bits) : Bool :=
  xorAll ((List.range m).map fun j => cell h i j && elem cw j)

/-- The bits of rows 0..K−1 assembled MSB-first: row 0 ends most significant
(42_decode.md R120, 40_construction.md R90). -/
def assemble (k : Nat) (row : Nat → Bool) : Nat :=
  (List.range k).foldl (fun syn i => 2 * syn + (row i).toNat) 0

/-- The syndrome of a received codeword (42_decode.md R120). -/
def syndrome (h : ParityMatrix) (k m : Nat) (cw : Bits) : Nat :=
  assemble k fun i => rowCheck h m i cw

/-- The overall parity; 0 when EXTENDED = 0 (42_decode.md R121). -/
def overallParity (e : Bool) (cw : Bits) : Bool := e && xorAll cw

/-- `LOOKUP(syn)`: a miss is reported as Indeterminate, not raised (42_decode.md R123). -/
def lookup (rom : Rom) (syn : Nat) : Kind × Nat :=
  if (romRead rom syn).hit then (.singleBitCorrectable, (romRead rom syn).col)
  else (.indeterminate, 0)

/-- `CLASSIFY(e, op, syn)` (42_decode.md R122, R124). -/
def classify (rom : Rom) (m : Nat) (e op : Bool) (syn : Nat) : Kind × Nat :=
  match e with
  | false => if syn = 0 then (.noError, 0) else lookup rom syn
  | true =>
    if op && syn == 0 then (.singleBitCorrectable, m - 1)
    else if op then lookup rom syn
    else if syn = 0 then (.noError, 0)
    else (.doubleBitDetected, 0)

end Sys2Proof.Machine
end

