-- ==== Sys2Proof/Machine/Construction.lean ====
section
/-!
DEFINITION. The elaboration operations PLAN, BUILD_MATRIX and BUILD_TABLE (40_construction.md).
-/
namespace Sys2Proof.Machine

/-- The sizes of a configuration (40_construction.md R80 to R82, 10_state.md R24). -/
def planSizes (d : Nat) (e : Bool) : Sizes :=
  let p := parityCount d
  let n := p + e.toNat
  let m := d + n
  { p := p, n := n, m := m, k := n - e.toNat, posW := max 1 (clog2 m) }

/-- PLAN (40_construction.md R80 to R82). It starts the elaboration of a block; run on a block
already elaborated, it starts that of another one in its place (log 4). -/
def execPlan (d : Nat) (e : Bool) (s : State) : Result :=
  whenBuildable s d (.next (s.withPlan d e (planSizes d e)))

/-- Row `i` of the matrix, `i` below K: bit `i` of the position, 0 in the global column
(40_construction.md R85). -/
def nonExtendedRow (m : Nat) (e : Bool) (i : Nat) : Bits :=
  (List.range m).map fun j => decide (j < m - e.toNat) && (j + 1).testBit i

/-- The N × M parity-check matrix: rows 0..K−1 test the position's bits, and the row after them,
which exists when e = 1 as N is then K + 1, is all ones (40_construction.md R85, R87). -/
def buildMatrix (n k m : Nat) (e : Bool) : ParityMatrix :=
  (List.range n).map fun i => if i < k then nonExtendedRow m e i else List.replicate m true

/-- BUILD_MATRIX (40_construction.md R85). -/
def execBuildMatrix (s : State) : Result :=
  .next (s.withMatrix (buildMatrix s.n s.k s.m s.extended))

/-- The syndrome that column `j` alone produces: its cells in the non-extended rows, top to
bottom, row 0 most significant (40_construction.md R90). -/
def columnSyndrome (h : ParityMatrix) (k j : Nat) : Nat := assemble k fun i => cell h i j

/-- What BUILD_TABLE does at column `j`: the checks in the order range, zero, duplicate
(40_construction.md R92, 60_exceptions.md R156), then the entry (40_construction.md R90). -/
def tableColumn (h : ParityMatrix) (k : Nat) (rom : Rom) (j : Nat) : Except ConfigurationCause Rom :=
  let syn := columnSyndrome h k j
  if ¬ syn < 2 ^ k then .error (.syndromeRange j syn)
  else if syn = 0 then .error (.syndromeZero j)
  else if (romRead rom syn).hit then .error (.syndromeDup j (romRead rom syn).col syn)
  else .ok (rom.set syn (hitEntry j))

/-- The columns of a list, one after another; the first failing check ends it
(60_exceptions.md R156). -/
def tableColumns (h : ParityMatrix) (k : Nat) : List Nat → Rom → Except ConfigurationCause Rom
  | [], rom => .ok rom
  | j :: js, rom =>
    match tableColumn h k rom j with
    | .error cause => .error cause
    | .ok rom' => tableColumns h k js rom'

/-- The syndrome-position ROM: 2^K sentinels, then every column but the global one, in ascending
order (40_construction.md R90). -/
def buildTable (h : ParityMatrix) (k m : Nat) (e : Bool) : Except ConfigurationCause Rom :=
  tableColumns h k (List.range (m - e.toNat)) (List.replicate (2 ^ k) sentinel)

/-- BUILD_TABLE (40_construction.md R90, R92). -/
def execBuildTable (s : State) : Result :=
  whenMatrixBuilt s fun h =>
    match buildTable h s.k s.m s.extended with
    | .error cause => raiseConfigurationFault cause
    | .ok rom => .next (s.withRom rom)

end Sys2Proof.Machine
end

