-- ==== Sys2Proof/Machine/Decoder.lean ====
section
/-!
DEFINITION. DECODE (42_decode.md).
-/
namespace Sys2Proof.Machine

/-- The decoder side when `cw` is driven on `dec_cw` (42_decode.md R120, R125). -/
def diagnose (h : ParityMatrix) (rom : Rom) (k m posW : Nat) (e : Bool) (cw : Bits) : DecPorts :=
  let syn := syndrome h k m cw
  let op := overallParity e cw
  let found := classify rom m e op syn
  { cw := cw, kind := found.1.code, pos := natToBits posW found.2, syndrome := natToBits k syn,
    overallParity := op }

/-- DECODE: drive `dec_cw`, and the four outputs follow (42_decode.md R120). It does not correct
the codeword (R129). -/
def execDecode (cw : Bits) (s : State) : Result :=
  whenElaborated s fun h rom =>
    whenShape cw s.m
      (.next (s.driveDec (diagnose h rom s.k s.m s.posW s.extended cw)))

end Sys2Proof.Machine
end

