-- ==== Sys2Proof/Machine/Encoder.lean ====
section
/-!
DEFINITION. ENCODE (41_encode.md).
-/
namespace Sys2Proof.Machine

/-- The walk over the positions: powers of two are skipped, every other position takes the next
data bit while there is one, and a data bit of value 1 adds its position to the accumulator
(41_encode.md R100, R101). Answers the codeword's elements at these positions, with 0 where
nothing is placed yet, and the accumulator. -/
def placeData (k : Nat) : List Nat → Bits → Nat → Bits × Nat
  | [], _, acc => ([], acc)
  | pos :: rest, data, acc =>
    if isPow2 pos then
      let placed := placeData k rest data acc
      (false :: placed.1, placed.2)
    else
      match data with
      | [] =>
        let placed := placeData k rest [] acc
        (false :: placed.1, placed.2)
      | b :: data' =>
        let placed := placeData k rest data' (if b then acc ^^^ (pos % 2 ^ k) else acc)
        (b :: placed.1, placed.2)

/-- Index 2^i − 1 receives bit `i` of the accumulator, for each `i` below K (41_encode.md R102). -/
def placeParity (k acc : Nat) (cw : Bits) : Bits :=
  (List.range k).foldl (fun c i => c.set (2 ^ i - 1) (acc.testBit i)) cw

/-- When e = 1, index M − 1 receives the xor of indices 0..M−2 (41_encode.md R103). -/
def placeGlobal (e : Bool) (m : Nat) (cw : Bits) : Bits :=
  if e then cw.set (m - 1) (xorAll (cw.take (m - 1))) else cw

/-- The codeword of a data vector (41_encode.md R100). -/
def codewordOf (k m : Nat) (e : Bool) (data : Bits) : Bits :=
  let placed := placeData k (positions m) data 0
  placeGlobal e m (placeParity k placed.2 placed.1)

/-- ENCODE: drive `enc_data`, and `enc_cw` follows (41_encode.md R100). -/
def execEncode (data : Bits) (s : State) : Result :=
  whenElaborated s fun _ _ =>
    whenShape data s.dataLen
      (.next (s.driveEnc { data := data, cw := codewordOf s.k s.m s.extended data }))

end Sys2Proof.Machine
end

