-- ==== Sys2Proof/Machine/Dispatch.lean ====
section
/-!
DEFINITION. One arm per operation of opcode_table.json.
-/
namespace Sys2Proof.Machine

def exec (i : Instr) (s : State) : Host.Outcome State Fault Refusal :=
  match i with
  | .plan d e => Sys2Proof.Machine.execPlan d e s
  | .buildMatrix => Sys2Proof.Machine.execBuildMatrix s
  | .buildTable => Sys2Proof.Machine.execBuildTable s
  | .encode data => Sys2Proof.Machine.execEncode data s
  | .decode cw => Sys2Proof.Machine.execDecode cw s

end Sys2Proof.Machine
end

