-- ==== Sys2Proof/Machine/Step.lean ====
section
/-!
DEFINITION. One step: the next operation the host has lined up (log 14).
-/
namespace Sys2Proof.Machine

/-- Take the operation at the front of the host's queue and run it. With nothing lined up the
block stays as it is: it never stops (70_reset_and_hazards.md R178; log 11). -/
def step (s : State) : Host.Outcome State Fault Refusal :=
  match s.pending with
  | [] => .next s
  | b :: bytes =>
    match decode (b :: bytes) with
    | .error why => .refused (.undecodable why)
    | .ok (i, rest) => exec i (s.withPending rest)

/-- The state with the operation of a table word as all that the host has lined up: it stands for
the host presenting that operation (log 14). -/
def State.withFetchWord (s : State) (nbits w : Nat) : State := s.withPending (fetchBytes nbits w)

end Sys2Proof.Machine
end

