-- ==== Sys2Proof/Machine/HostScript.lean ====
section
/-!
DEFINITION. The host's side: the script notation of 30_encoding.md R71 run on host variables
against one block, CORRECT and EXTRACT, and the elaboration of a configuration in the order of
70_reset_and_hazards.md R173. The block does none of this itself (42_decode.md R129); representing
a script as data is the model's (log 15).
-/
namespace Sys2Proof.Machine

/-- CONFIG: PLAN, then BUILD_MATRIX, then BUILD_TABLE (30_encoding.md R71,
70_reset_and_hazards.md R173). -/
def elaborate (d : Nat) (e : Bool) (s : State) : Result :=
  andThen (exec (.plan d e) s) fun planned =>
    andThen (exec .buildMatrix planned) fun built => exec .buildTable built

/-- The record a host binds to a DECODE: (kind, pos, syn, op) (30_encoding.md R71). -/
structure Diagnosis where
  kind : Kind
  pos : Nat
  syn : Nat
  op : Bool
deriving DecidableEq, Repr

/-- What the host reads from the decoder's output ports (20_memory.md R43, 30_encoding.md R64). -/
def DecPorts.read (ports : DecPorts) : Diagnosis where
  kind := Kind.ofCode ports.kind
  pos := bitsToNat ports.pos
  syn := bitsToNat ports.syndrome
  op := ports.overallParity

/-- A flip set the source's harness may apply to a codeword: no index twice, at most one without
the extended bit and at most two with it (60_exceptions.md R160). -/
def State.contractAllows (s : State) (flips : List Nat) : Prop :=
  flips.Nodup ∧ (∀ j ∈ flips, j < s.m) ∧ flips.length ≤ 1 + s.extended.toNat

/-- What CORRECT leaves in a variable (30_encoding.md R71; 60_exceptions.md R162). -/
def correctWith (cw : Bits) (r : Diagnosis) : Bits :=
  if r.kind = .singleBitCorrectable then flipBit cw r.pos else cw

/-- What EXTRACT reads from a codeword: its `d` data positions in order (30_encoding.md R71). -/
def extractData (d : Nat) (cw : Bits) : Bits :=
  (List.range d).map fun t => elem cw (dataPos t - 1)

/-- A host variable, by number (log 15). -/
abbrev Var := Nat

/-- What a host variable holds. -/
inductive Value where
  | vector (v : Bits)
  | record (r : Diagnosis)
deriving DecidableEq, Repr

/-- The value a statement drives: a host variable or a literal. -/
inductive Source where
  | var (v : Var)
  | literal (v : Bits)
deriving DecidableEq, Repr

/-- The element FLIP inverts: a literal index, or the `pos` of a record (as CORRECT needs). -/
inductive Index where
  | literal (j : Nat)
  | posOf (r : Var)
deriving DecidableEq, Repr

/-- A condition on host variables. -/
inductive Cond where
  | kindIs (r : Var) (kind : Kind)
  | posIs (r : Var) (pos : Nat)
  | synIs (r : Var) (syn : Nat)
  | opIs (r : Var) (op : Bool)
  | vectorIs (v : Var) (value : Bits)
  | vectorsEqual (v w : Var)
  | not (cond : Cond)
  | and (first second : Cond)
  | or (first second : Cond)
deriving DecidableEq, Repr

/-- A statement of the host script (30_encoding.md R71). -/
inductive Stmt where
  | config (d : Nat) (e : Bool)
  | encode (v : Var) (data : Source)
  | decode (r : Var) (cw : Source)
  | flip (v : Var) (j : Index)
  | ifThen (cond : Cond) (body : Stmt)
  /-- The assertion `EXPECT cond`, evaluated where its line stands. DESIGN CHOICE, unsafe (log 20):
  R71 calls it the end-state assertion and does not say on which values a line before the end is. -/
  | expect (cond : Cond)
  /-- A pseudo-statement: the host reads the data positions itself. -/
  | extract (t v : Var)
deriving DecidableEq, Repr

/-- The pseudo-statement `CORRECT v, r`, expanded (30_encoding.md R71). -/
def Stmt.correct (v r : Var) : Stmt :=
  .ifThen (.kindIs r .singleBitCorrectable) (.flip v (.posOf r))

/-- Why a script stops before its last statement. -/
inductive ScriptStop where
  /-- The block stopped with a fault. -/
  | blockFault (why : Fault)
  /-- The block, or the boundary to its ports, refused the operation. -/
  | blockRefused (why : Refusal)
  /-- The variable holds nothing yet. -/
  | unbound (v : Var)
  /-- The variable does not hold what the statement needs. -/
  | wrongSort (v : Var)
  /-- FLIP names an element the variable does not have. -/
  | flipOutside (v : Var) (j : Nat)
  /-- The block drove no output. -/
  | noOutput
  /-- EXPECT's condition does not hold at its line (log 20). -/
  | expectFailed (cond : Cond)
deriving DecidableEq, Repr

/-- A block and the host's variables (95_test_vectors.md L3: the only memory of a script). -/
structure Bench where
  block : State
  vars : List (Var × Value)
deriving DecidableEq, Repr

/-- The host's variables with `v` bound to `x`. -/
def bindVar (vars : List (Var × Value)) (v : Var) (x : Value) : List (Var × Value) :=
  (v, x) :: vars.filter fun entry => entry.1 != v

def readVar (vars : List (Var × Value)) (v : Var) : Except ScriptStop Value :=
  match vars.lookup v with
  | none => .error (.unbound v)
  | some x => .ok x

def readVector (vars : List (Var × Value)) (v : Var) : Except ScriptStop Bits :=
  match readVar vars v with
  | .error why => .error why
  | .ok (.record _) => .error (.wrongSort v)
  | .ok (.vector x) => .ok x

def readRecord (vars : List (Var × Value)) (r : Var) : Except ScriptStop Diagnosis :=
  match readVar vars r with
  | .error why => .error why
  | .ok (.vector _) => .error (.wrongSort r)
  | .ok (.record x) => .ok x

def readSource (vars : List (Var × Value)) : Source → Except ScriptStop Bits
  | .var v => readVector vars v
  | .literal v => .ok v

def readIndex (vars : List (Var × Value)) : Index → Except ScriptStop Nat
  | .literal j => .ok j
  | .posOf r => (readRecord vars r).map (·.pos)

/-- Whether a condition holds (30_encoding.md R71, IF and EXPECT). -/
def evalCond (vars : List (Var × Value)) : Cond → Except ScriptStop Bool
  | .kindIs r kind => (readRecord vars r).map (·.kind == kind)
  | .posIs r pos => (readRecord vars r).map (·.pos == pos)
  | .synIs r syn => (readRecord vars r).map (·.syn == syn)
  | .opIs r op => (readRecord vars r).map (·.op == op)
  | .vectorIs v value => (readVector vars v).map (· == value)
  | .vectorsEqual v w => do
    let x ← readVector vars v
    let y ← readVector vars w
    .ok (x == y)
  | .not cond => (evalCond vars cond).map (!·)
  | .and first second => do
    let a ← evalCond vars first
    let b ← evalCond vars second
    .ok (a && b)
  | .or first second => do
    let a ← evalCond vars first
    let b ← evalCond vars second
    .ok (a || b)

/-- One operation of the block on the host's behalf. -/
def operate (r : Result) : Except ScriptStop State :=
  match r with
  | .next s => .ok s
  | .fault why => .error (.blockFault why)
  | .refused why => .error (.blockRefused why)

/-- One statement (30_encoding.md R71). EXPECT reads the variables as they are at its line, not at
the end of the script: DESIGN CHOICE (log 20). -/
def runStmt : Stmt → Bench → Except ScriptStop Bench
  | .config d e, bench =>
    (operate (elaborate d e bench.block)).map fun s => { bench with block := s }
  | .encode v data, bench => do
    let driven ← readSource bench.vars data
    let s ← operate (exec (.encode driven) bench.block)
    match s.enc with
    | none => .error .noOutput
    | some ports => .ok { block := s, vars := bindVar bench.vars v (.vector ports.cw) }
  | .decode r cw, bench => do
    let driven ← readSource bench.vars cw
    let s ← operate (exec (.decode driven) bench.block)
    match s.dec with
    | none => .error .noOutput
    | some ports => .ok { block := s, vars := bindVar bench.vars r (.record ports.read) }
  | .flip v index, bench => do
    let x ← readVector bench.vars v
    let j ← readIndex bench.vars index
    if j < x.length then
      .ok { bench with vars := bindVar bench.vars v (.vector (flipBit x j)) }
    else .error (.flipOutside v j)
  | .ifThen cond body, bench => do
    if ← evalCond bench.vars cond then runStmt body bench else .ok bench
  | .expect cond, bench => do
    if ← evalCond bench.vars cond then .ok bench else .error (.expectFailed cond)
  | .extract t v, bench => do
    let x ← readVector bench.vars v
    .ok { bench with vars := bindVar bench.vars t (.vector (extractData bench.block.dataLen x)) }

/-- A script, statement by statement; its end is the host's variables and the block. -/
def runScript : List Stmt → Bench → Except ScriptStop Bench
  | [], bench => .ok bench
  | stmt :: rest, bench =>
    match runStmt stmt bench with
    | .error why => .error why
    | .ok bench' => runScript rest bench'

end Sys2Proof.Machine
end

