-- ==== Sys2Proof/Safety.lean ====
section
/-!
DEFINITION. What a state that a run can reach looks like, in the terms the statements use: each
part is written from the rules' closed forms, not from the operations that establish it.
-/
namespace Sys2Proof.Machine

/-- The sizes are those of the configuration (40_construction.md R80 to R82, 10_state.md R24), and
the implementation can build it (00_scope.md R5). -/
structure State.PlanInv (s : State) : Prop where
  buildable : Config.capAdmits s.maxDataLen s.dataLen = true
  p_enough : s.dataLen + s.p + 1 ≤ 2 ^ s.p
  p_least : ∀ q < s.p, 2 ^ q < s.dataLen + q + 1
  n_eq : s.n = s.p + s.extended.toNat
  m_eq : s.m = s.dataLen + s.n
  k_eq : s.k = s.n - s.extended.toNat
  posW_pos : 1 ≤ s.posW
  posW_enough : s.m ≤ 2 ^ s.posW
  posW_least : s.posW = 1 ∨ 2 ^ (s.posW - 1) < s.m

/-- The matrix is the parity-check matrix of the configuration (40_construction.md R85, R87). -/
structure State.MatrixInv (s : State) (h : ParityMatrix) : Prop where
  rows : h.length = s.n
  columns : ∀ row ∈ h, row.length = s.m
  nonExtended : ∀ i < s.k, ∀ j < s.m,
    cell h i j = (decide (j < s.m - s.extended.toNat) && (j + 1).testBit i)
  extendedRow : s.extended = true → ∀ j < s.m, cell h (s.n - 1) j = true

/-- What the ROM of the configuration holds at address `a` (40_construction.md R91). -/
def State.romEntry (s : State) (a : Nat) : RomEntry :=
  if 1 ≤ bitrev s.k a ∧ bitrev s.k a ≤ s.m - s.extended.toNat then hitEntry (bitrev s.k a - 1)
  else sentinel

/-- The ROM is that of the configuration (40_construction.md R90, R91). -/
structure State.RomInv (s : State) (rom : Rom) : Prop where
  size : rom.length = 2 ^ s.k
  entry : ∀ a < 2 ^ s.k, romRead rom a = s.romEntry a

/-- `enc_cw` is the codeword of `enc_data` (41_encode.md R104; the global bit as in R103). -/
structure State.EncInv (s : State) (ports : EncPorts) : Prop where
  data_width : ports.data.length = s.dataLen
  cw_width : ports.cw.length = s.m
  dataBit : ∀ t < s.dataLen, elem ports.cw (dataPos t - 1) = elem ports.data t
  parityBit : ∀ i < s.k, elem ports.cw (2 ^ i - 1) =
    xorAll ((List.range s.dataLen).map fun t => elem ports.data t && (dataPos t).testBit i)
  globalBit : s.extended = true → elem ports.cw (s.m - 1) = xorAll (ports.cw.take (s.m - 1))

/-- The diagnosis in terms of `x`, the xor of the positions of the set bits outside the global
column, and the overall parity `op` (42_decode.md R122 to R124 and R128). -/
def State.outcome (s : State) (op : Bool) (x : Nat) : Kind × Nat :=
  if x = 0 then if op then (.singleBitCorrectable, s.m - 1) else (.noError, 0)
  else if s.extended && !op then (.doubleBitDetected, 0)
  else if x ≤ s.m - s.extended.toNat then (.singleBitCorrectable, x - 1)
  else (.indeterminate, 0)

/-- The positions' xor that decides the diagnosis of `cw` (42_decode.md R126). -/
def State.errorSum (s : State) (cw : Bits) : Nat := xorPositions (s.m - s.extended.toNat) cw

/-- The decoder's outputs are the diagnosis of `dec_cw` (42_decode.md R121, R125, R126, R128). -/
structure State.DecInv (s : State) (ports : DecPorts) : Prop where
  cw_width : ports.cw.length = s.m
  syndrome : ports.syndrome = natToBits s.k (bitrev s.k (s.errorSum ports.cw))
  parity : ports.overallParity = (s.extended && xorAll ports.cw)
  kind : ports.kind = (s.outcome ports.overallParity (s.errorSum ports.cw)).1.code
  pos : ports.pos = natToBits s.posW (s.outcome ports.overallParity (s.errorSum ports.cw)).2

/-- The invariant of the block: every constant built so far is the configuration's, elaboration
goes in its order, and every driven side shows the outputs of its input (10_state.md R20, R32,
70_reset_and_hazards.md R173). -/
structure State.Inv (s : State) : Prop where
  plan : s.PlanInv
  matrix : ∀ h, s.matrix = some h → s.MatrixInv h
  rom : ∀ rom, s.rom = some rom → s.matrix.isSome = true ∧ s.RomInv rom
  enc : ∀ ports, s.enc = some ports → s.elaborated = true ∧ s.EncInv ports
  dec : ∀ ports, s.dec = some ports → s.elaborated = true ∧ s.DecInv ports

/-- A block that the host can use: its invariant holds and its elaboration is complete. -/
structure State.Ready (s : State) : Prop where
  inv : s.Inv
  done : s.elaborated = true

/-- Two states hold the same block: configuration, sizes, matrix and ROM (10_state.md R20). -/
def State.sameConstants (s t : State) : Prop :=
  t.dataLen = s.dataLen ∧ t.extended = s.extended ∧ t.maxDataLen = s.maxDataLen ∧
  t.p = s.p ∧ t.n = s.n ∧ t.m = s.m ∧ t.k = s.k ∧ t.posW = s.posW ∧
  t.matrix = s.matrix ∧ t.rom = s.rom

/-- A step from the state raises no ConfigurationFault. -/
def State.Safe (s : State) : Prop := ∀ why, step s ≠ .fault why

end Sys2Proof.Machine
end

