-- ==== Sys2Proof/Certificates/Slice0/Obligations.lean ====
section
/-!
DEFINITION. The statements for the provers. Each cites the rule it formalises; a statement that
rests on a choice of the model names the log entry.
-/
open Sys2Proof Sys2Proof.Machine

/-! ## Reset, steps and the host's queue -/

/-- The reset state meets the invariant (its configuration is the model's choice, log 2). -/
def Obligations.ResetMeetsTheInvariant : Prop :=
  State.reset.Inv

/-- The reset state is what PLAN, BUILD_MATRIX and BUILD_TABLE leave for the configuration
d = 0, e = 0 (log 2), on any block without a cap and with nothing pending. -/
def Obligations.ResetIsTheElaboratedEmptyBlock : Prop :=
  ∀ s : State, s.maxDataLen = none → s.pending = [] →
    elaborate 0 false s = .next State.reset

/-- Every step keeps the invariant: the constants stay those of the configuration and every driven
side shows the outputs of its input (10_state.md R20, R32). -/
def Obligations.StepKeepsTheInvariant : Prop :=
  ∀ s t : State, s.Inv → step s = .next t → t.Inv

/-- A step runs the operation at the front of the host's queue, which it takes off (log 14); with
nothing lined up the state stays (log 11); bytes that stand for nothing are refused (log 1). -/
def Obligations.StepRunsThePendingOperation : Prop :=
  ∀ s : State,
    (∀ i rest, decode s.pending = .ok (i, rest) → step s = exec i (s.withPending rest)) ∧
    (s.pending = [] → step s = .next s) ∧
    (∀ why, s.pending ≠ [] → decode s.pending = .error why →
      step s = .refused (.undecodable why))

/-- A state prepared with a table word runs exactly the operation the decoder reads from that
word (log 14). -/
def Obligations.FetchedTableWordIsRun : Prop :=
  ∀ (s : State) (nbits w : Nat) (i : Instr), decodeTableWord nbits w = some i →
    step (s.withFetchWord nbits w) = exec i (s.withPending [])

/-- No step from a state that meets the invariant raises a fault: no check of BUILD_TABLE can fail
for the specified matrix (40_construction.md R92), and nothing else raises one. -/
def Obligations.NoReachableStepFaults : Prop :=
  ∀ s : State, s.Inv → s.Safe

/-! ## Encoding (the byte form is the model's choice, log 1) -/

/-- Decoding the bytes of any operation, whatever follows them, gives that operation back. -/
def Obligations.DecodeOfEncodeGivesTheOperation : Prop :=
  ∀ (i : Instr) (rest : List Byte), decode (encode i ++ rest) = .ok (i, rest)

/-- An operation has one spelling: bytes that decode to it begin with its encoding. -/
def Obligations.EncodeOfDecodeGivesTheBytes : Prop :=
  ∀ (bytes rest : List Byte) (i : Instr), decode bytes = .ok (i, rest) → bytes = encode i ++ rest

/-- A few words of the byte form (log 1): PLAN of (4, 1), BUILD_MATRIX, BUILD_TABLE, ENCODE of
list:1011 (port form 13) and DECODE of list:0100011 (port form 98); an unused selector and a
number that does not fit its width are refused. -/
def Obligations.SampleWordsDecode : Prop :=
  decode [0x00, 0x01, 0x04] = .ok (.plan 4 true, []) ∧
  decode [0x01] = .ok (.buildMatrix, []) ∧
  decode [0x02] = .ok (.buildTable, []) ∧
  decode [0x03, 0x04, 0x0D] = .ok (.encode [true, false, true, true], []) ∧
  decode [0x04, 0x07, 0x62] =
    .ok (.decode [false, true, false, false, false, true, true], []) ∧
  decode [0x05] = .error (.unknownSelector 0x05) ∧
  decode [0x03, 0x02, 0x04] = .error (.valueTooWide 2 4)

/-! ## PLAN -/

/-- PLAN completes for every buildable DATA_LEN; P is the least p with 2^p ≥ d + p + 1, N = P + e
and M = d + N (40_construction.md R80, R81). -/
def Obligations.PlanFindsTheLeastParityCount : Prop :=
  ∀ (s : State) (d : Nat) (e : Bool), Config.capAdmits s.maxDataLen d = true →
    ∃ t, exec (.plan d e) s = .next t ∧ t.dataLen = d ∧ t.extended = e ∧
      d + t.p + 1 ≤ 2 ^ t.p ∧ (∀ q, d + q + 1 ≤ 2 ^ q → t.p ≤ q) ∧
      t.n = t.p + e.toNat ∧ t.m = d + t.n

/-- After PLAN the syndrome width is K = N − e = P, and 2^K exceeds d + P = M − e
(40_construction.md R82, derived there). -/
def Obligations.PlanSyndromeWidthIsSufficient : Prop :=
  ∀ (s t : State) (d : Nat) (e : Bool), exec (.plan d e) s = .next t →
    t.k = t.n - e.toNat ∧ t.k = t.p ∧ d + t.p = t.m - e.toNat ∧ t.m - e.toNat < 2 ^ t.k

/-- After PLAN, POS_W = max(1, clog2(M)): it is at least 1, every index 0..M−1 fits it, and it is
the least such width (10_state.md R24). -/
def Obligations.PlanPositionWidth : Prop :=
  ∀ (s : State) (d : Nat) (e : Bool), Config.capAdmits s.maxDataLen d = true →
    ∃ t, exec (.plan d e) s = .next t ∧ t.posW = max 1 (clog2 t.m) ∧
      1 ≤ t.posW ∧ (∀ j < t.m, j < 2 ^ t.posW) ∧
      (∀ w, 1 ≤ w → (∀ j < t.m, j < 2 ^ w) → t.posW ≤ w) ∧
      (t.m ≤ 1 → t.posW = 1) ∧ (t.m = 3 ∨ t.m = 4 → t.posW = 2) ∧
      (5 ≤ t.m ∧ t.m ≤ 8 → t.posW = 3) ∧ (t.m = 15 ∨ t.m = 16 → t.posW = 4)

/-- The ranges of P: r for d in 2^(r−1) − r + 1 .. 2^r − r − 1 when r ≥ 2; never 1
(40_construction.md R83, derived there). -/
def Obligations.PlanParityCountRanges : Prop :=
  ∀ (s t : State) (d : Nat) (e : Bool), exec (.plan d e) s = .next t →
    t.p ≠ 1 ∧ (d = 0 → t.p = 0) ∧
    ∀ r, 2 ≤ r → 2 ^ (r - 1) + 1 ≤ d + r → d + r + 1 ≤ 2 ^ r → t.p = r

/-- PLAN of a DATA_LEN over the implementation's cap is refused, with that DATA_LEN and the cap
(00_scope.md R5, 92_eei_decisions.md D2; the form of the refusal is the model's, log 3). -/
def Obligations.PlanOverTheCapIsRefused : Prop :=
  ∀ (s : State) (d cap : Nat) (e : Bool), s.maxDataLen = some cap → cap < d →
    exec (.plan d e) s = .refused (.dataLenOverCap d cap)

/-- PLAN changes neither the cap nor the host's queue, and leaves a block on which nothing is
built or driven (log 4). -/
def Obligations.PlanFrame : Prop :=
  ∀ (s t : State) (d : Nat) (e : Bool), exec (.plan d e) s = .next t →
    t.maxDataLen = s.maxDataLen ∧ t.pending = s.pending ∧
    t.matrix = none ∧ t.rom = none ∧ t.enc = none ∧ t.dec = none

/-! ## BUILD_MATRIX -/

/-- BUILD_MATRIX completes, changes nothing but H, and leaves an N × M matrix: cell (i, j) of a
non-extended row is bit i of j + 1 in the first M − e columns and 0 in the global column, and when
e = 1 row N − 1 is all ones, its own column included (40_construction.md R85, R87). -/
def Obligations.BuildMatrixFillsTheMatrix : Prop :=
  ∀ s : State, s.Inv →
    ∃ h, exec .buildMatrix s = .next { s with matrix := some h } ∧
      h.length = s.n ∧ (∀ row ∈ h, row.length = s.m) ∧
      (∀ i < s.k, ∀ j < s.m,
        cell h i j = if j < s.m - s.extended.toNat then (j + 1).testBit i else false) ∧
      (s.extended = true → ∀ j < s.m, cell h (s.n - 1) j = true)

/-- The run-length pattern: in row i, among the first M − e columns, 2^i − 1 columns are
uncovered, then blocks of 2^i columns are covered and uncovered in turn (40_construction.md R86,
derived there). -/
def Obligations.BuildMatrixRunLengthPattern : Prop :=
  ∀ s : State, s.Inv →
    ∃ h, exec .buildMatrix s = .next { s with matrix := some h } ∧
      ∀ i < s.k, ∀ j < s.m - s.extended.toNat,
        cell h i j = (decide (2 ^ i - 1 ≤ j) && decide ((j - (2 ^ i - 1)) / 2 ^ i % 2 = 0))

/-- Every position 1..M−e is non-zero and distinct as a K-bit number, so no two columns of the
matrix have one syndrome and none has the syndrome 0 (40_construction.md R84, derived there). -/
def Obligations.ColumnSyndromesAreDistinct : Prop :=
  ∀ (s : State) (h : ParityMatrix), s.Inv → s.matrix = some h →
    (∀ q, 1 ≤ q → q ≤ s.m - s.extended.toNat → q < 2 ^ s.k) ∧
    (∀ j < s.m - s.extended.toNat, columnSyndrome h s.k j = bitrev s.k (j + 1) ∧
      columnSyndrome h s.k j ≠ 0) ∧
    (∀ j < s.m - s.extended.toNat, ∀ j' < s.m - s.extended.toNat,
      columnSyndrome h s.k j = columnSyndrome h s.k j' → j = j')

/-! ## BUILD_TABLE -/

/-- BUILD_TABLE completes once the matrix is built and changes nothing but the ROM: 2^K entries;
for every column but the global one, the entry at its syndrome names it, and every address that is
no column's syndrome keeps the sentinel (40_construction.md R90). -/
def Obligations.BuildTableStoresEveryColumn : Prop :=
  ∀ (s : State) (h : ParityMatrix), s.Inv → s.matrix = some h →
    ∃ rom, exec .buildTable s = .next { s with rom := some rom } ∧ rom.length = 2 ^ s.k ∧
      (∀ j < s.m - s.extended.toNat,
        romRead rom (columnSyndrome h s.k j) = { hit := true, col := j }) ∧
      (∀ a < 2 ^ s.k, (∀ j < s.m - s.extended.toNat, columnSyndrome h s.k j ≠ a) →
        romRead rom a = { hit := false, col := 0 })

/-- The closed form of the ROM: ROM[a] = (1, bitrev_K(a) − 1) when 1 ≤ bitrev_K(a) ≤ M − e, and
the sentinel otherwise (40_construction.md R91, derived there). -/
def Obligations.BuildTableClosedForm : Prop :=
  ∀ s : State, s.Inv → s.matrix.isSome = true →
    ∃ rom, exec .buildTable s = .next { s with rom := some rom } ∧
      ∀ a < 2 ^ s.k, romRead rom a =
        if 1 ≤ bitrev s.k a ∧ bitrev s.k a ≤ s.m - s.extended.toNat
        then { hit := true, col := bitrev s.k a - 1 } else { hit := false, col := 0 }

/-- BUILD_TABLE on whatever matrix the state holds raises the first failing check: columns in
ascending order, zero before duplicate; the range check never fails, since a syndrome has K bits
(60_exceptions.md R151, R156, 40_construction.md R92). -/
def Obligations.BuildTableRaisesTheFirstFailingCheck : Prop :=
  ∀ (s : State) (h : ParityMatrix) (j : Nat), s.matrix = some h → j < s.m - s.extended.toNat →
    (∀ i < j, columnSyndrome h s.k i ≠ 0) →
    (∀ i < j, ∀ i' < i, columnSyndrome h s.k i' ≠ columnSyndrome h s.k i) →
    columnSyndrome h s.k j < 2 ^ s.k ∧
    (columnSyndrome h s.k j = 0 →
      exec .buildTable s = .fault (.configurationFault (.syndromeZero j))) ∧
    (∀ i < j, columnSyndrome h s.k j ≠ 0 → columnSyndrome h s.k i = columnSyndrome h s.k j →
      exec .buildTable s =
        .fault (.configurationFault (.syndromeDup j i (columnSyndrome h s.k j))))

/-- The ROM of an elaborated block holds exactly 2^K entries, address 0 holds the sentinel
(20_memory.md R46), and every entry's layout is `col` below `hit` (30_encoding.md R66): the column
fits POS_W bits, is that of a non-global column on a hit, and 0 on the sentinel. -/
def Obligations.RomAddressSpaceAndLayout : Prop :=
  ∀ (s : State) (rom : Rom), s.Inv → s.rom = some rom →
    rom.length = 2 ^ s.k ∧ romRead rom 0 = { hit := false, col := 0 } ∧
    ∀ a < 2 ^ s.k,
      ((romRead rom a).word s.posW).length = 1 + s.posW ∧
      elem ((romRead rom a).word s.posW) s.posW = (romRead rom a).hit ∧
      bitsToNat (((romRead rom a).word s.posW).take s.posW) = (romRead rom a).col ∧
      ((romRead rom a).hit = true → (romRead rom a).col < s.m - s.extended.toNat) ∧
      ((romRead rom a).hit = false → romRead rom a = { hit := false, col := 0 })

/-- The ROM and K depend on d only, not on e (40_construction.md R93, its last sentence). -/
def Obligations.RomDoesNotDependOnExtended : Prop :=
  ∀ (s s' : State) (d : Nat), Config.capAdmits s.maxDataLen d = true →
    Config.capAdmits s'.maxDataLen d = true →
    ∃ t t', elaborate d false s = .next t ∧ elaborate d true s' = .next t' ∧
      t.k = t'.k ∧ t.rom.isSome = true ∧ t.rom = t'.rom

/-! ## Elaboration as a whole -/

/-- PLAN, BUILD_MATRIX and BUILD_TABLE in this order elaborate every buildable configuration to a
block that meets the invariant and is complete (70_reset_and_hazards.md R173, 10_state.md R20).
That they do so from ANY state, also one already elaborated and driven, and leave nothing driven
there, is the model's choice (log 4, with log 5 for a side that is not driven), not those rules'. -/
def Obligations.ElaborationGivesAReadyBlock : Prop :=
  ∀ (s : State) (d : Nat) (e : Bool), Config.capAdmits s.maxDataLen d = true →
    ∃ t, elaborate d e s = .next t ∧ t.Ready ∧ t.dataLen = d ∧ t.extended = e ∧
      t.enc = none ∧ t.dec = none ∧ t.maxDataLen = s.maxDataLen ∧ t.pending = s.pending

/-- Idempotent construction: whatever the two states before, elaborating the same configuration
twice gives bit-identical N, M, K, H and ROM (40_construction.md R94). -/
def Obligations.ConstructionIsIdempotent : Prop :=
  ∀ (s s' : State) (d : Nat) (e : Bool), Config.capAdmits s.maxDataLen d = true →
    Config.capAdmits s'.maxDataLen d = true →
    ∃ t t', elaborate d e s = .next t ∧ elaborate d e s' = .next t' ∧
      t.n = t'.n ∧ t.m = t'.m ∧ t.k = t'.k ∧
      t.matrix.isSome = true ∧ t.matrix = t'.matrix ∧ t.rom.isSome = true ∧ t.rom = t'.rom

/-- On a ready block BUILD_MATRIX and BUILD_TABLE change nothing at all, and so nothing but a PLAN
changes the constants after elaboration (10_state.md R20; PLAN begins another block, log 4). -/
def Obligations.NothingChangesAfterElaboration : Prop :=
  (∀ s : State, s.Ready → exec .buildMatrix s = .next s ∧ exec .buildTable s = .next s) ∧
  ∀ (s t : State) (i : Instr), s.Ready → (∀ d e, i ≠ .plan d e) → exec i s = .next t →
    s.sameConstants t

/-- Before elaboration is complete ENCODE and DECODE are refused, and BUILD_TABLE before
BUILD_MATRIX (70_reset_and_hazards.md R173; the refusals are the model's, log 7). -/
def Obligations.OperationsOutOfOrderAreRefused : Prop :=
  (∀ (s : State) (v : Bits), s.elaborated = false →
    exec (.encode v) s = .refused .notElaborated ∧
    exec (.decode v) s = .refused .notElaborated) ∧
  ∀ s : State, s.matrix = none → exec .buildTable s = .refused .matrixNotBuilt

/-- On an elaborated block a vector is refused exactly when its length is not the port's: it is
the only thing that can be wrong with it (60_exceptions.md R153, 30_encoding.md R69; log 6). -/
def Obligations.WrongLengthIsRefusedAtThePort : Prop :=
  ∀ (s : State) (v : Bits), s.elaborated = true →
    ((Instr.encode v).wellFormed s.shape = false →
      exec (.encode v) s = .refused (.inputShape v.length s.dataLen)) ∧
    ((Instr.decode v).wellFormed s.shape = false →
      exec (.decode v) s = .refused (.inputShape v.length s.m)) ∧
    ((Instr.encode v).wellFormed s.shape = true → ∃ t, exec (.encode v) s = .next t) ∧
    ((Instr.decode v).wellFormed s.shape = true → ∃ t, exec (.decode v) s = .next t)

/-! ## The codeword -/

/-- The data positions of a codeword are dataPos(0), …, dataPos(d − 1) in order, and the other
positions up to M − e are the parity positions 2^0, …, 2^(K−1) (30_encoding.md R61, R62, derived
there). -/
def Obligations.PositionsAreParityOrData : Prop :=
  ∀ s : State, s.Inv →
    dataPositions (s.m - s.extended.toNat) = (List.range s.dataLen).map dataPos ∧
    ∀ q, 1 ≤ q → q ≤ s.m - s.extended.toNat →
      (isPow2 q = true ↔ ∃ i < s.k, q = 2 ^ i)

/-- A data position q holds data bit q − 2 − floor(log2 q) (30_encoding.md R62, derived there). -/
def Obligations.DataPositionInverse : Prop :=
  ∀ t : Nat, isPow2 (dataPos t) = false ∧ dataPos t < dataPos (t + 1) ∧
    t = dataPos t - 2 - Nat.log2 (dataPos t)

/-- ENCODE on a ready block completes, changes the encoder side alone, and drives a codeword of M
bits: data bit t at dataPos(t); index 2^i − 1 holds bit i of the xor of the positions, masked to K
bits, of the data bits that are 1, and the mask changes no position; when e = 1 index M − 1 holds
the xor of indices 0..M−2 (41_encode.md R101, R102, R103). Derived: the spec marks as its own
inference that the mask changes no position (R101) and the placement by dataPos (R62). -/
def Obligations.EncodePlacesDataParityAndGlobalBits : Prop :=
  ∀ (s : State) (data : Bits), s.Ready → data.length = s.dataLen →
    ∃ cw, exec (.encode data) s = .next { s with enc := some { data := data, cw := cw } } ∧
      cw.length = s.m ∧
      (∀ t < s.dataLen, elem cw (dataPos t - 1) = elem data t) ∧
      (∀ t < s.dataLen, dataPos t % 2 ^ s.k = dataPos t) ∧
      (∀ i < s.k, elem cw (2 ^ i - 1) =
        ((List.range s.dataLen).foldl
          (fun acc t => if elem data t then acc ^^^ (dataPos t % 2 ^ s.k) else acc) 0).testBit i) ∧
      (s.extended = true → elem cw (s.m - 1) = xorAll (cw.take (s.m - 1)))

/-- The closed forms of ENCODE: each parity bit is the xor of the data bits whose position has
that bit, and the global bit is the xor of all data bits and of the accumulator's bits
(41_encode.md R104, derived there). -/
def Obligations.EncodeClosedForms : Prop :=
  ∀ (s t : State) (data : Bits) (ports : EncPorts), s.Ready →
    exec (.encode data) s = .next t → t.enc = some ports →
    (∀ i < s.k, elem ports.cw (2 ^ i - 1) =
      xorAll ((List.range s.dataLen).map fun u => elem data u && (dataPos u).testBit i)) ∧
    (s.extended = true → elem ports.cw (s.m - 1) =
      (xorAll data ^^ decide (popcount (natToBits s.k ((List.range s.dataLen).foldl
        (fun acc u => if elem data u then acc ^^^ dataPos u else acc) 0)) % 2 = 1)))

/-- ENCODE is linear over GF(2), sends 0 to 0, and is injective (41_encode.md R105, derived
there). -/
def Obligations.EncodeIsLinearAndInjective : Prop :=
  ∀ (s : State) (a b : Bits), s.Ready → a.length = s.dataLen → b.length = s.dataLen →
    ∃ ca cb cx cz,
      exec (.encode a) s = .next (s.driveEnc ⟨a, ca⟩) ∧
      exec (.encode b) s = .next (s.driveEnc ⟨b, cb⟩) ∧
      exec (.encode (xorBits a b)) s = .next (s.driveEnc ⟨xorBits a b, cx⟩) ∧
      exec (.encode (List.replicate s.dataLen false)) s =
        .next (s.driveEnc ⟨List.replicate s.dataLen false, cz⟩) ∧
      cx = xorBits ca cb ∧ cz = List.replicate s.m false ∧ (ca = cb → a = b)

/-- Every codeword ENCODE produces passes every check: each non-extended row of the block's matrix
gives 0, and when e = 1 the xor of all M bits is 0 (41_encode.md R106, derived there). -/
def Obligations.EncodedWordPassesEveryCheck : Prop :=
  ∀ (s t : State) (h : ParityMatrix) (data : Bits) (ports : EncPorts), s.Ready →
    s.matrix = some h → exec (.encode data) s = .next t → t.enc = some ports →
    (∀ i < s.k, xorAll ((List.range s.m).map fun j => cell h i j && elem ports.cw j) = false) ∧
    (s.extended = true → xorAll ports.cw = false)

/-! ## The diagnosis -/

/-- DECODE on an elaborated block completes, whatever matrix and ROM it holds, and changes the
decoder side alone; element K−1−i of the K-bit syndrome is the xor of H[i][j] and cw[j] over all M
columns; the overall parity is the xor of all M bits when e = 1 and 0 when e = 0 (42_decode.md
R120, R121). Derived: that row 0 is the most significant is the spec's reading of "MSB-first"
(91_not_in_source.md G15, log 18). -/
def Obligations.DecodeComputesSyndromeAndParity : Prop :=
  ∀ (s : State) (h : ParityMatrix) (rom : Rom) (cw : Bits), s.matrix = some h → s.rom = some rom →
    cw.length = s.m →
    ∃ ports, exec (.decode cw) s = .next { s with dec := some ports } ∧ ports.cw = cw ∧
      ports.syndrome.length = s.k ∧
      (∀ i < s.k, elem ports.syndrome (s.k - 1 - i) =
        xorAll ((List.range s.m).map fun j => cell h i j && elem cw j)) ∧
      ports.overallParity = (if s.extended then xorAll cw else false)

/-- The classification of DECODE, with `syn` the number on `dec_syndrome` and `op` the overall
parity: in both modes a non-zero syndrome that reaches LOOKUP gives the ROM's column, or
Indeterminate on a miss; the rest is NoError, DoubleBitDetected, or the global bit; `dec_pos` is 0
outside SingleBitCorrectable (42_decode.md R122, R123, R124, R125). -/
def Obligations.DecodeClassifies : Prop :=
  ∀ (s : State) (h : ParityMatrix) (rom : Rom) (cw : Bits), s.matrix = some h → s.rom = some rom →
    cw.length = s.m →
    ∃ ports, exec (.decode cw) s = .next { s with dec := some ports } ∧
      bitsToNat ports.syndrome = syndrome h s.k s.m cw ∧
      ports.overallParity = overallParity s.extended cw ∧
      (bitsToNat ports.syndrome = 0 → ports.overallParity = false →
        ports.kind = Kind.code .noError ∧ ports.pos = natToBits s.posW 0) ∧
      (bitsToNat ports.syndrome = 0 → ports.overallParity = true →
        ports.kind = Kind.code .singleBitCorrectable ∧ ports.pos = natToBits s.posW (s.m - 1)) ∧
      (bitsToNat ports.syndrome ≠ 0 → s.extended = true → ports.overallParity = false →
        ports.kind = Kind.code .doubleBitDetected ∧ ports.pos = natToBits s.posW 0) ∧
      (bitsToNat ports.syndrome ≠ 0 → (s.extended = true → ports.overallParity = true) →
        (romRead rom (bitsToNat ports.syndrome)).hit = true →
        ports.kind = Kind.code .singleBitCorrectable ∧
        ports.pos = natToBits s.posW (romRead rom (bitsToNat ports.syndrome)).col) ∧
      (bitsToNat ports.syndrome ≠ 0 → (s.extended = true → ports.overallParity = true) →
        (romRead rom (bitsToNat ports.syndrome)).hit = false →
        ports.kind = Kind.code .indeterminate ∧ ports.pos = natToBits s.posW 0)

/-- The codes of the four kinds, and that a host reads each back (30_encoding.md R64). -/
def Obligations.KindCodes : Prop :=
  Kind.code .noError = 0b00#2 ∧ Kind.code .singleBitCorrectable = 0b01#2 ∧
  Kind.code .doubleBitDetected = 0b10#2 ∧ Kind.code .indeterminate = 0b11#2 ∧
  (∀ kind, Kind.ofCode kind.code = kind) ∧ ∀ c, (Kind.ofCode c).code = c

/-- The combinations DECODE produces on a ready block, for every received codeword
(30_encoding.md R65, derived there). -/
def Obligations.DiagnosisFieldCombinations : Prop :=
  ∀ (s : State) (cw : Bits), s.Ready → cw.length = s.m →
    ∃ ports, exec (.decode cw) s = .next (s.driveDec ports) ∧
      ports.pos.length = s.posW ∧ ports.syndrome.length = s.k ∧
      (Kind.ofCode ports.kind = .noError →
        ports.read.pos = 0 ∧ ports.read.syn = 0 ∧ ports.read.op = false) ∧
      (Kind.ofCode ports.kind = .singleBitCorrectable →
        ports.read.pos < s.m ∧ ports.read.op = s.extended ∧
        (ports.read.syn = 0 → s.extended = true ∧ ports.read.pos = s.m - 1)) ∧
      (Kind.ofCode ports.kind = .doubleBitDetected →
        ports.read.pos = 0 ∧ ports.read.syn ≠ 0 ∧ ports.read.op = false ∧ s.extended = true) ∧
      (Kind.ofCode ports.kind = .indeterminate →
        ports.read.pos = 0 ∧ ports.read.syn ≠ 0 ∧ ports.read.op = s.extended)

/-- The syndrome of any received codeword is the bit-reversed xor of the positions of its set bits
outside the global column (42_decode.md R126, derived there). -/
def Obligations.DecodeSyndromeClosedForm : Prop :=
  ∀ (s : State) (cw : Bits), s.Ready → cw.length = s.m →
    ∃ ports, exec (.decode cw) s = .next (s.driveDec ports) ∧
      bitsToNat ports.syndrome =
        bitrev s.k (xorPositions (s.m - s.extended.toNat) cw)

/-- The extended row is read by no operation: on two states whose matrices agree on the
non-extended rows, every operation ends alike. It faults with the same cause on both, or is refused
for the same reason on both, or answers two states that agree on every field but the matrix, where
each keeps its own or both get the same one (10_state.md R27, 40_construction.md R87). -/
def Obligations.ExtendedRowIsNeverRead : Prop :=
  ∀ (s : State) (h h' : ParityMatrix) (i : Instr), s.matrix = some h →
    (∀ row < s.k, ∀ j, cell h row j = cell h' row j) →
    (∀ why, exec i s = .fault why ↔ exec i { s with matrix := some h' } = .fault why) ∧
    (∀ why, exec i s = .refused why ↔ exec i { s with matrix := some h' } = .refused why) ∧
    ((∃ t, exec i s = .next t) ↔ ∃ t', exec i { s with matrix := some h' } = .next t') ∧
    ∀ t t', exec i s = .next t → exec i { s with matrix := some h' } = .next t' →
      t' = { t with matrix := t'.matrix } ∧
      (t'.matrix = t.matrix ∨ t.matrix = some h ∧ t'.matrix = some h')

/-- What the diagnosis of a codeword with the indices `flips` inverted is, from the error pattern
alone: the outcome by number of flips, every case (42_decode.md R127, R128, derived there; the
value on `dec_syndrome` rests on log 18, and position 0 outside SingleBitCorrectable on log 19). -/
def Obligations.DiagnosisByErrorPattern : Prop :=
  ∀ (s s₁ : State) (data : Bits) (enc : EncPorts) (flips : List Nat), s.Ready →
    exec (.encode data) s = .next s₁ → s₁.enc = some enc →
    flips.Nodup → (∀ j ∈ flips, j < s.m) →
    ∃ s₂ ports, exec (.decode (flipBits enc.cw flips)) s₁ = .next s₂ ∧ s₂.dec = some ports ∧
      let x := (flips.filter fun j => decide (j < s.m - s.extended.toNat)).foldl
        (fun sum j => sum ^^^ (j + 1)) 0
      let op := s.extended && decide (flips.length % 2 = 1)
      ports.read.syn = bitrev s.k x ∧ ports.read.op = op ∧
      (ports.read.kind, ports.read.pos) = s.outcome op x

/-- Round trip: for every configuration and every data value, DECODE(ENCODE(x)) gives NoError with
syndrome 0 and overall parity 0 (42_decode.md R130, which the spec marks derived); position 0 is
R125's, by 92_eei_decisions.md D7 (log 19). -/
def Obligations.RoundTripGivesNoError : Prop :=
  ∀ (s : State) (data : Bits), s.Ready → data.length = s.dataLen →
    ∃ s₁ enc s₂ ports, exec (.encode data) s = .next s₁ ∧ s₁.enc = some enc ∧
      exec (.decode enc.cw) s₁ = .next s₂ ∧ s₂.dec = some ports ∧
      ports.read = { kind := .noError, pos := 0, syn := 0, op := false }

/-- Single-bit correction: for every configuration, every codeword and every index, DECODE of the
codeword with that index flipped gives SingleBitCorrectable at that index, in both modes, the
global bit included (42_decode.md R131, which the spec marks derived). -/
def Obligations.SingleFlipIsLocated : Prop :=
  ∀ (s : State) (data : Bits) (j : Nat), s.Ready → data.length = s.dataLen → j < s.m →
    ∃ s₁ enc s₂ ports, exec (.encode data) s = .next s₁ ∧ s₁.enc = some enc ∧
      exec (.decode (flipBit enc.cw j)) s₁ = .next s₂ ∧ s₂.dec = some ports ∧
      ports.read.kind = .singleBitCorrectable ∧ ports.read.pos = j

/-- Double-bit detection, extended mode: for every configuration with e = 1, every codeword and
every two distinct indices, DECODE of the codeword with both flipped gives DoubleBitDetected
(42_decode.md R132, which the spec marks derived). -/
def Obligations.DoubleFlipIsDetected : Prop :=
  ∀ (s : State) (data : Bits) (i j : Nat), s.Ready → s.extended = true →
    data.length = s.dataLen → i < s.m → j < s.m → i ≠ j →
    ∃ s₁ enc s₂ ports, exec (.encode data) s = .next s₁ ∧ s₁.enc = some enc ∧
      exec (.decode (flipBit (flipBit enc.cw i) j)) s₁ = .next s₂ ∧ s₂.dec = some ports ∧
      ports.read.kind = .doubleBitDetected

/-- In non-extended mode two flips never give NoError; the diagnosis is SingleBitCorrectable or
Indeterminate, and a diagnosed index is neither of the flipped ones (42_decode.md R133, R128,
derived there). -/
def Obligations.TwoFlipsWithoutExtendedBit : Prop :=
  ∀ (s : State) (data : Bits) (i j : Nat), s.Ready → s.extended = false →
    data.length = s.dataLen → i < s.m → j < s.m → i ≠ j →
    ∃ s₁ enc s₂ ports, exec (.encode data) s = .next s₁ ∧ s₁.enc = some enc ∧
      exec (.decode (flipBit (flipBit enc.cw i) j)) s₁ = .next s₂ ∧ s₂.dec = some ports ∧
      ((ports.read.kind = .singleBitCorrectable ∧ ports.read.pos ≠ i ∧ ports.read.pos ≠ j) ∨
        ports.read.kind = .indeterminate)

/-- Against every input the source's harness may produce, zero, one or (with the extended bit) two
distinct flips of an encoded word, the block gives a diagnosis, and it is NoError,
SingleBitCorrectable at the flipped index, or DoubleBitDetected (60_exceptions.md R160). -/
def Obligations.HostContractIsMet : Prop :=
  ∀ (s : State) (data : Bits) (flips : List Nat), s.Ready → data.length = s.dataLen →
    s.contractAllows flips →
    ∃ s₁ enc s₂ ports, exec (.encode data) s = .next s₁ ∧ s₁.enc = some enc ∧
      exec (.decode (flipBits enc.cw flips)) s₁ = .next s₂ ∧ s₂.dec = some ports ∧
      (flips = [] → ports.read.kind = .noError) ∧
      (∀ j, flips = [j] → ports.read.kind = .singleBitCorrectable ∧ ports.read.pos = j) ∧
      (flips.length = 2 → ports.read.kind = .doubleBitDetected)

/-- The host's CORRECT and EXTRACT after any single flip, or none, give the data back: what a host
may rely on in both modes (30_encoding.md R71, 42_decode.md R129, R131; 60_exceptions.md R162).
CorrectAndExtractStatements says that the script's CORRECT and EXTRACT are these functions. -/
def Obligations.CorrectionRecoversTheData : Prop :=
  ∀ (s : State) (data : Bits) (flips : List Nat), s.Ready → data.length = s.dataLen →
    flips.length ≤ 1 → (∀ j ∈ flips, j < s.m) →
    ∃ s₁ enc s₂ ports, exec (.encode data) s = .next s₁ ∧ s₁.enc = some enc ∧
      exec (.decode (flipBits enc.cw flips)) s₁ = .next s₂ ∧ s₂.dec = some ports ∧
      correctWith (flipBits enc.cw flips) ports.read = enc.cw ∧
      extractData s.dataLen (correctWith (flipBits enc.cw flips) ports.read) = data

/-- The script statements CORRECT and EXTRACT on bound variables (30_encoding.md R71). CORRECT
leaves in its vector what `correctWith` gives for the record, and EXTRACT binds its target to the
data positions of its vector; both leave the block and every other variable alone. A record whose
position lies outside the vector stops CORRECT by name (the stop is the model's, log 15). -/
def Obligations.CorrectAndExtractStatements : Prop :=
  ∀ (bench : Bench) (v : Var) (cw : Bits), readVector bench.vars v = .ok cw →
    (∀ r diagnosis, readRecord bench.vars r = .ok diagnosis →
      ((diagnosis.kind = .singleBitCorrectable → diagnosis.pos < cw.length) →
        ∃ bench', runStmt (.correct v r) bench = .ok bench' ∧ bench'.block = bench.block ∧
          readVector bench'.vars v = .ok (correctWith cw diagnosis) ∧
          ∀ w, w ≠ v → readVar bench'.vars w = readVar bench.vars w) ∧
      (diagnosis.kind = .singleBitCorrectable → cw.length ≤ diagnosis.pos →
        runStmt (.correct v r) bench = .error (.flipOutside v diagnosis.pos))) ∧
    ∀ t, ∃ bench', runStmt (.extract t v) bench = .ok bench' ∧ bench'.block = bench.block ∧
      readVector bench'.vars t = .ok (extractData bench.block.dataLen cw) ∧
      ∀ w, w ≠ t → readVar bench'.vars w = readVar bench.vars w

/-! ## Independence -/

/-- ENCODE leaves the constants, the decoder side and the host's queue as they are, and DECODE the
constants, the encoder side and the queue, on every state (20_memory.md R49,
70_reset_and_hazards.md R176). -/
def Obligations.RunTimeOperationsFrame : Prop :=
  ∀ (s t : State) (v : Bits),
    (exec (.encode v) s = .next t →
      s.sameConstants t ∧ t.dec = s.dec ∧ t.pending = s.pending ∧
        (t.enc.map fun ports => ports.data) = some v) ∧
    (exec (.decode v) s = .next t →
      s.sameConstants t ∧ t.enc = s.enc ∧ t.pending = s.pending ∧
        (t.dec.map fun ports => ports.cw) = some v)

/-- BUILD_MATRIX leaves everything but H as it is, and BUILD_TABLE everything but the ROM, on every
state (40_construction.md R85, R90). -/
def Obligations.ConstructionOperationsFrame : Prop :=
  ∀ s t : State,
    (exec .buildMatrix s = .next t →
      t.dataLen = s.dataLen ∧ t.extended = s.extended ∧ t.maxDataLen = s.maxDataLen ∧
      t.p = s.p ∧ t.n = s.n ∧ t.m = s.m ∧ t.k = s.k ∧ t.posW = s.posW ∧ t.rom = s.rom ∧
      t.enc = s.enc ∧ t.dec = s.dec ∧ t.pending = s.pending) ∧
    (exec .buildTable s = .next t →
      t.dataLen = s.dataLen ∧ t.extended = s.extended ∧ t.maxDataLen = s.maxDataLen ∧
      t.p = s.p ∧ t.n = s.n ∧ t.m = s.m ∧ t.k = s.k ∧ t.posW = s.posW ∧ t.matrix = s.matrix ∧
      t.enc = s.enc ∧ t.dec = s.dec ∧ t.pending = s.pending)

/-- An ENCODE and a DECODE in either order give the same block: each output is what its rule gives
for its own input (20_memory.md R48). -/
def Obligations.EncodeAndDecodeCommute : Prop :=
  ∀ (s : State) (data cw : Bits), s.elaborated = true → data.length = s.dataLen →
    cw.length = s.m →
    ∃ t, andThen (exec (.encode data) s) (exec (.decode cw)) = .next t ∧
      andThen (exec (.decode cw) s) (exec (.encode data)) = .next t

/-- The same input value always gives the same outputs: two states that hold the same block, with
whatever history on their ports, answer an input alike, and a second evaluation of the same input
changes nothing (10_state.md R30, 20_memory.md R45). -/
def Obligations.SameInputGivesSameOutputs : Prop :=
  ∀ (s s' t : State) (v : Bits), s.sameConstants s' →
    (exec (.encode v) s = .next t →
      (∃ t', exec (.encode v) s' = .next t' ∧ t'.enc = t.enc) ∧ exec (.encode v) t = .next t) ∧
    (exec (.decode v) s = .next t →
      (∃ t', exec (.decode v) s' = .next t' ∧ t'.dec = t.dec) ∧ exec (.decode v) t = .next t)
end

