-- ==== Sys2Proof/Laws/Bits.lean ====
section
/-!
SUPPORT. The laws of the operand forms: bit vectors and numbers, xor, the two searches, powers of
two and bit reversal.
-/
namespace Sys2Proof.Machine

/-! ### Elements -/

@[simp] theorem elem_nil (j : Nat) : elem [] j = false := rfl
@[simp] theorem elem_cons_zero (b : Bool) (v : Bits) : elem (b :: v) 0 = b := rfl
@[simp] theorem elem_cons_succ (b : Bool) (v : Bits) (j : Nat) :
    elem (b :: v) (j + 1) = elem v j := rfl

theorem elem_outside {v : Bits} {j : Nat} (h : v.length ≤ j) : elem v j = false := by
  unfold elem
  rw [List.getD_eq_getElem?_getD, List.getElem?_eq_none h, Option.getD_none]

theorem elem_eq_getElem {v : Bits} {j : Nat} (h : j < v.length) : elem v j = v[j] := by
  unfold elem
  rw [List.getD_eq_getElem _ _ h]

/-- Two vectors of one width with the same elements are equal. -/
theorem bits_ext {v w : Bits} (hl : v.length = w.length)
    (h : ∀ j < v.length, elem v j = elem w j) : v = w := by
  refine List.ext_getElem hl fun j hj hj' => ?_
  rw [← elem_eq_getElem hj, ← elem_eq_getElem hj']
  exact h j hj

theorem elem_map_range {f : Nat → Bool} {n j : Nat} (h : j < n) :
    elem ((List.range n).map f) j = f j := by
  rw [elem_eq_getElem (by simpa using h)]
  simp

theorem elem_set_eq {v : Bits} {j : Nat} (b : Bool) (h : j < v.length) :
    elem (v.set j b) j = b := by
  unfold elem
  rw [List.getD_eq_getElem?_getD, List.getElem?_set_self h, Option.getD_some]

theorem elem_set_ne {v : Bits} {i j : Nat} (b : Bool) (h : i ≠ j) :
    elem (v.set i b) j = elem v j := by
  unfold elem
  rw [List.getD_eq_getElem?_getD, List.getElem?_set_ne h, ← List.getD_eq_getElem?_getD]

@[simp] theorem flipBit_length (v : Bits) (j : Nat) : (flipBit v j).length = v.length := by
  simp [flipBit]

/-- FLIP inverts its element and leaves every other alone. -/
theorem elem_flipBit {v : Bits} {i j : Nat} (h : i < v.length) :
    elem (flipBit v i) j = (decide (i = j) ^^ elem v j) := by
  unfold flipBit
  by_cases hij : i = j
  · subst hij
    rw [elem_set_eq _ h]
    simp
  · rw [elem_set_ne _ hij]
    simp [hij]

/-- Flipping an element twice gives the vector back. -/
theorem flipBit_flipBit (v : Bits) (j : Nat) : flipBit (flipBit v j) j = v := by
  by_cases h : j < v.length
  · refine bits_ext (by simp) fun i _ => ?_
    rw [elem_flipBit (by simpa using h), elem_flipBit h]
    cases decide (j = i) <;> cases elem v i <;> rfl
  · simp [flipBit, List.set_eq_of_length_le (Nat.le_of_not_lt h)]

@[simp] theorem flipBits_nil (v : Bits) : flipBits v [] = v := rfl
@[simp] theorem flipBits_cons (v : Bits) (j : Nat) (js : List Nat) :
    flipBits v (j :: js) = flipBits (flipBit v j) js := rfl

@[simp] theorem flipBits_length (v : Bits) (js : List Nat) :
    (flipBits v js).length = v.length := by
  induction js generalizing v with
  | nil => rfl
  | cons j js ih => rw [flipBits_cons, ih, flipBit_length]

/-! ### Numbers and vectors -/

@[simp] theorem natToBits_length (w x : Nat) : (natToBits w x).length = w := by
  induction w generalizing x with
  | zero => rfl
  | succ w ih => simp [natToBits, ih]

theorem elem_natToBits (w x j : Nat) :
    elem (natToBits w x) j = (decide (j < w) && x.testBit j) := by
  induction w generalizing x j with
  | zero => simp [natToBits]
  | succ w ih =>
    cases j with
    | zero =>
      simp only [natToBits, elem_cons_zero, Nat.zero_lt_succ, decide_true, Bool.true_and,
        Nat.testBit_zero, beq_eq_decide]
    | succ j =>
      simp only [natToBits, elem_cons_succ, ih, Nat.add_lt_add_iff_right, Nat.testBit_add_one]

theorem bitsToNat_lt (v : Bits) : bitsToNat v < 2 ^ v.length := by
  induction v with
  | nil => simp [bitsToNat]
  | cons b v ih =>
    have : b.toNat ≤ 1 := Bool.toNat_le b
    rw [bitsToNat, List.length_cons, Nat.pow_succ]
    omega

theorem bitsToNat_natToBits (w x : Nat) : bitsToNat (natToBits w x) = x % 2 ^ w := by
  induction w generalizing x with
  | zero => simp [natToBits, bitsToNat, Nat.mod_one]
  | succ w ih =>
    rw [natToBits, bitsToNat, ih, Nat.pow_succ, Nat.mul_comm (2 ^ w) 2, Nat.mod_mul]
    rcases Nat.mod_two_eq_zero_or_one x with h | h <;> simp [h]

theorem bitsToNat_natToBits_of_lt {w x : Nat} (h : x < 2 ^ w) :
    bitsToNat (natToBits w x) = x := by
  rw [bitsToNat_natToBits, Nat.mod_eq_of_lt h]

theorem natToBits_bitsToNat (v : Bits) : natToBits v.length (bitsToNat v) = v := by
  induction v with
  | nil => rfl
  | cons b v ih =>
    rw [List.length_cons, natToBits, bitsToNat]
    have hmod : (b.toNat + 2 * bitsToNat v) % 2 = b.toNat := by cases b <;> simp
    have hdiv : (b.toNat + 2 * bitsToNat v) / 2 = bitsToNat v := by
      cases b <;> simp
      omega
    rw [hmod, hdiv, ih]
    cases b <;> rfl

theorem testBit_bitsToNat (v : Bits) (j : Nat) : (bitsToNat v).testBit j = elem v j := by
  have h := elem_natToBits v.length (bitsToNat v) j
  rw [natToBits_bitsToNat] at h
  by_cases hj : j < v.length
  · simpa [hj] using h.symm
  · rw [elem_outside (Nat.le_of_not_lt hj)]
    exact Nat.testBit_eq_false_of_lt
      (Nat.lt_of_lt_of_le (bitsToNat_lt v) (Nat.pow_le_pow_right (by decide) (Nat.le_of_not_lt hj)))

/-! ### Xor -/

@[simp] theorem xorAll_nil : xorAll [] = false := rfl
@[simp] theorem xorAll_cons (b : Bool) (v : Bits) : xorAll (b :: v) = (b ^^ xorAll v) := rfl

theorem xorAll_append (v w : Bits) : xorAll (v ++ w) = (xorAll v ^^ xorAll w) := by
  induction v with
  | nil => simp
  | cons b v ih => simp [ih]

/-- The xor of a vector is the parity of its number of ones (00_scope.md R8, R9). -/
theorem xorAll_eq_popcount (v : Bits) : xorAll v = decide (popcount v % 2 = 1) := by
  induction v with
  | nil => rfl
  | cons b v ih =>
    rw [xorAll_cons, ih]
    unfold popcount
    cases b
    · simp
    · rw [List.count_cons_self]
      by_cases h : List.count true v % 2 = 1
      · have : (List.count true v + 1) % 2 ≠ 1 := by omega
        simp [h, this]
      · have : (List.count true v + 1) % 2 = 1 := by omega
        simp [h, this]

/-- An xor of xors can be taken apart. -/
theorem xorAll_map_xor {α : Type} (l : List α) (f g : α → Bool) :
    xorAll (l.map fun a => f a ^^ g a) = (xorAll (l.map f) ^^ xorAll (l.map g)) := by
  induction l with
  | nil => rfl
  | cons a l ih =>
    simp only [List.map_cons, xorAll_cons, ih]
    cases f a <;> cases g a <;> cases xorAll (l.map f) <;> cases xorAll (l.map g) <;> rfl

/-- Flipping one element of a vector flips its xor. -/
theorem xorAll_flipBit {v : Bits} {j : Nat} (h : j < v.length) :
    xorAll (flipBit v j) = !xorAll v := by
  induction v generalizing j with
  | nil => simp at h
  | cons b v ih =>
    cases j with
    | zero => simp [flipBit, List.set]
    | succ j =>
      have := ih (j := j) (by simpa using h)
      simp only [flipBit, elem_cons_succ, List.set_cons_succ, xorAll_cons] at this ⊢
      rw [this]
      cases b <;> simp

/-! ### Searches -/

theorem parityCountFrom_spec (fuel p d : Nat) (hf : d + (p + fuel) + 1 ≤ 2 ^ (p + fuel)) :
    d + parityCountFrom fuel p d + 1 ≤ 2 ^ parityCountFrom fuel p d ∧
      p ≤ parityCountFrom fuel p d ∧
      ∀ q, p ≤ q → q < parityCountFrom fuel p d → 2 ^ q < d + q + 1 := by
  induction fuel generalizing p with
  | zero => exact ⟨hf, Nat.le_refl _, fun q h h' => absurd h' (Nat.not_lt.mpr h)⟩
  | succ fuel ih =>
    unfold parityCountFrom
    split
    · rename_i hlt
      have ih' := ih (p + 1) (by rw [Nat.add_assoc p 1 fuel, Nat.add_comm 1 fuel]; exact hf)
      refine ⟨ih'.1, by omega, fun q hq hq' => ?_⟩
      by_cases hqp : q = p
      · exact hqp ▸ hlt
      · exact ih'.2.2 q (by omega) hq'
    · rename_i hge
      exact ⟨Nat.le_of_not_lt hge, Nat.le_refl _, fun q h h' => absurd h' (Nat.not_lt.mpr h)⟩

/-- PLAN's search finds a number of parity bits that is enough (40_construction.md R80). -/
theorem parityCount_enough (d : Nat) : d + parityCount d + 1 ≤ 2 ^ parityCount d := by
  refine (parityCountFrom_spec (d + 1) 0 d ?_).1
  have : d + 1 ≤ 2 ^ d := Nat.lt_two_pow_self
  rw [Nat.zero_add, Nat.pow_succ]
  omega

/-- Every smaller number of parity bits is too few (40_construction.md R80). -/
theorem parityCount_least {d q : Nat} (h : q < parityCount d) : 2 ^ q < d + q + 1 := by
  refine (parityCountFrom_spec (d + 1) 0 d ?_).2.2 q (Nat.zero_le q) h
  have : d + 1 ≤ 2 ^ d := Nat.lt_two_pow_self
  rw [Nat.zero_add, Nat.pow_succ]
  omega

theorem clog2From_spec (fuel w x : Nat) (hf : x ≤ 2 ^ (w + fuel)) :
    x ≤ 2 ^ clog2From fuel w x ∧ ∀ u, w ≤ u → u < clog2From fuel w x → 2 ^ u < x := by
  induction fuel generalizing w with
  | zero => exact ⟨hf, fun u h h' => absurd h' (Nat.not_lt.mpr h)⟩
  | succ fuel ih =>
    unfold clog2From
    split
    · rename_i hle
      exact ⟨hle, fun u h h' => absurd h' (Nat.not_lt.mpr h)⟩
    · rename_i hgt
      have ih' := ih (w + 1) (by rw [Nat.add_assoc w 1 fuel, Nat.add_comm 1 fuel]; exact hf)
      refine ⟨ih'.1, fun u hu hu' => ?_⟩
      by_cases huw : u = w
      · exact huw ▸ Nat.lt_of_not_le hgt
      · exact ih'.2 u (by omega) hu'

/-- `2 ^ clog2 x` is at least `x` (00_scope.md R9). -/
theorem clog2_enough (x : Nat) : x ≤ 2 ^ clog2 x :=
  (clog2From_spec x 0 x (by rw [Nat.zero_add]; exact Nat.le_of_lt Nat.lt_two_pow_self)).1

/-- No smaller width is enough (00_scope.md R9). -/
theorem clog2_least {x u : Nat} (h : u < clog2 x) : 2 ^ u < x :=
  (clog2From_spec x 0 x (by rw [Nat.zero_add]; exact Nat.le_of_lt Nat.lt_two_pow_self)).2 u
    (Nat.zero_le u) h

/-- `isPow2` is what 00_scope.md R9 says. -/
theorem isPow2_iff (x : Nat) : isPow2 x = true ↔ ∃ i, x = 2 ^ i := by
  unfold isPow2
  constructor
  · intro h
    simp only [Bool.and_eq_true, bne_iff_ne, beq_iff_eq] at h
    exact ⟨_, h.2.symm⟩
  · rintro ⟨i, rfl⟩
    simp [Nat.log2_two_pow]

/-! ### Bit reversal -/

theorem bitrev_lt (k x : Nat) : bitrev k x < 2 ^ k := by
  unfold bitrev
  simpa using bitsToNat_lt (natToBits k x).reverse

/-- Bit K−1−i of the reversal is bit i of the number (00_scope.md R9). -/
theorem testBit_bitrev {k i : Nat} (x : Nat) (h : i < k) :
    (bitrev k x).testBit (k - 1 - i) = x.testBit i := by
  unfold bitrev
  have hlen : (natToBits k x).reverse.length = k := by simp
  rw [testBit_bitsToNat, elem_eq_getElem (by rw [hlen]; omega), List.getElem_reverse]
  have hi : (natToBits k x).length - 1 - (k - 1 - i) = i := by simp; omega
  simp only [hi]
  rw [← elem_eq_getElem (by simpa using h), elem_natToBits]
  simp [h]

/-- Two K-bit numbers with the same bits are equal. -/
theorem eq_of_testBit_below {k x y : Nat} (hx : x < 2 ^ k) (hy : y < 2 ^ k)
    (h : ∀ i < k, x.testBit i = y.testBit i) : x = y := by
  refine Nat.eq_of_testBit_eq fun i => ?_
  by_cases hi : i < k
  · exact h i hi
  · have hp : 2 ^ k ≤ 2 ^ i := Nat.pow_le_pow_right (by decide) (Nat.le_of_not_lt hi)
    rw [Nat.testBit_eq_false_of_lt (Nat.lt_of_lt_of_le hx hp),
      Nat.testBit_eq_false_of_lt (Nat.lt_of_lt_of_le hy hp)]

/-- Reversal undoes itself on K-bit numbers. -/
theorem bitrev_bitrev {k x : Nat} (h : x < 2 ^ k) : bitrev k (bitrev k x) = x := by
  refine eq_of_testBit_below (bitrev_lt _ _) h fun i hi => ?_
  have h₁ := testBit_bitrev (bitrev k x) (i := k - 1 - i) (k := k) (by omega)
  rw [show k - 1 - (k - 1 - i) = i by omega] at h₁
  rw [h₁, testBit_bitrev x hi]

/-- Reversal keeps K-bit numbers apart. -/
theorem bitrev_injective {k x y : Nat} (hx : x < 2 ^ k) (hy : y < 2 ^ k)
    (h : bitrev k x = bitrev k y) : x = y := by
  rw [← bitrev_bitrev hx, h, bitrev_bitrev hy]

@[simp] theorem bitrev_zero (k : Nat) : bitrev k 0 = 0 := by
  refine eq_of_testBit_below (bitrev_lt _ _) (Nat.two_pow_pos k) fun i hi => ?_
  have h := testBit_bitrev 0 (i := k - 1 - i) (k := k) (by omega)
  rw [show k - 1 - (k - 1 - i) = i by omega] at h
  simpa using h

end Sys2Proof.Machine
end

