-- ==== Sys2Proof/Laws/State.lean ====
section
/-!
SUPPORT. One lemma per field and update of State, so that no proof unfolds a record update.
-/
namespace Sys2Proof.Machine

/-! ### withPlan -/

@[simp] theorem withPlan_dataLen (s : State) (d : Nat) (e : Bool) (z : Sizes) : (s.withPlan d e z).dataLen = d := rfl
@[simp] theorem withPlan_extended (s : State) (d : Nat) (e : Bool) (z : Sizes) : (s.withPlan d e z).extended = e := rfl
@[simp] theorem withPlan_maxDataLen (s : State) (d : Nat) (e : Bool) (z : Sizes) : (s.withPlan d e z).maxDataLen = s.maxDataLen := rfl
@[simp] theorem withPlan_p (s : State) (d : Nat) (e : Bool) (z : Sizes) : (s.withPlan d e z).p = z.p := rfl
@[simp] theorem withPlan_n (s : State) (d : Nat) (e : Bool) (z : Sizes) : (s.withPlan d e z).n = z.n := rfl
@[simp] theorem withPlan_m (s : State) (d : Nat) (e : Bool) (z : Sizes) : (s.withPlan d e z).m = z.m := rfl
@[simp] theorem withPlan_k (s : State) (d : Nat) (e : Bool) (z : Sizes) : (s.withPlan d e z).k = z.k := rfl
@[simp] theorem withPlan_posW (s : State) (d : Nat) (e : Bool) (z : Sizes) : (s.withPlan d e z).posW = z.posW := rfl
@[simp] theorem withPlan_matrix (s : State) (d : Nat) (e : Bool) (z : Sizes) : (s.withPlan d e z).matrix = none := rfl
@[simp] theorem withPlan_rom (s : State) (d : Nat) (e : Bool) (z : Sizes) : (s.withPlan d e z).rom = none := rfl
@[simp] theorem withPlan_enc (s : State) (d : Nat) (e : Bool) (z : Sizes) : (s.withPlan d e z).enc = none := rfl
@[simp] theorem withPlan_dec (s : State) (d : Nat) (e : Bool) (z : Sizes) : (s.withPlan d e z).dec = none := rfl
@[simp] theorem withPlan_pending (s : State) (d : Nat) (e : Bool) (z : Sizes) : (s.withPlan d e z).pending = s.pending := rfl

/-! ### withMatrix -/

@[simp] theorem withMatrix_dataLen (s : State) (h : ParityMatrix) : (s.withMatrix h).dataLen = s.dataLen := rfl
@[simp] theorem withMatrix_extended (s : State) (h : ParityMatrix) : (s.withMatrix h).extended = s.extended := rfl
@[simp] theorem withMatrix_maxDataLen (s : State) (h : ParityMatrix) : (s.withMatrix h).maxDataLen = s.maxDataLen := rfl
@[simp] theorem withMatrix_p (s : State) (h : ParityMatrix) : (s.withMatrix h).p = s.p := rfl
@[simp] theorem withMatrix_n (s : State) (h : ParityMatrix) : (s.withMatrix h).n = s.n := rfl
@[simp] theorem withMatrix_m (s : State) (h : ParityMatrix) : (s.withMatrix h).m = s.m := rfl
@[simp] theorem withMatrix_k (s : State) (h : ParityMatrix) : (s.withMatrix h).k = s.k := rfl
@[simp] theorem withMatrix_posW (s : State) (h : ParityMatrix) : (s.withMatrix h).posW = s.posW := rfl
@[simp] theorem withMatrix_matrix (s : State) (h : ParityMatrix) : (s.withMatrix h).matrix = some h := rfl
@[simp] theorem withMatrix_rom (s : State) (h : ParityMatrix) : (s.withMatrix h).rom = s.rom := rfl
@[simp] theorem withMatrix_enc (s : State) (h : ParityMatrix) : (s.withMatrix h).enc = s.enc := rfl
@[simp] theorem withMatrix_dec (s : State) (h : ParityMatrix) : (s.withMatrix h).dec = s.dec := rfl
@[simp] theorem withMatrix_pending (s : State) (h : ParityMatrix) : (s.withMatrix h).pending = s.pending := rfl

/-! ### withRom -/

@[simp] theorem withRom_dataLen (s : State) (rom : Rom) : (s.withRom rom).dataLen = s.dataLen := rfl
@[simp] theorem withRom_extended (s : State) (rom : Rom) : (s.withRom rom).extended = s.extended := rfl
@[simp] theorem withRom_maxDataLen (s : State) (rom : Rom) : (s.withRom rom).maxDataLen = s.maxDataLen := rfl
@[simp] theorem withRom_p (s : State) (rom : Rom) : (s.withRom rom).p = s.p := rfl
@[simp] theorem withRom_n (s : State) (rom : Rom) : (s.withRom rom).n = s.n := rfl
@[simp] theorem withRom_m (s : State) (rom : Rom) : (s.withRom rom).m = s.m := rfl
@[simp] theorem withRom_k (s : State) (rom : Rom) : (s.withRom rom).k = s.k := rfl
@[simp] theorem withRom_posW (s : State) (rom : Rom) : (s.withRom rom).posW = s.posW := rfl
@[simp] theorem withRom_matrix (s : State) (rom : Rom) : (s.withRom rom).matrix = s.matrix := rfl
@[simp] theorem withRom_rom (s : State) (rom : Rom) : (s.withRom rom).rom = some rom := rfl
@[simp] theorem withRom_enc (s : State) (rom : Rom) : (s.withRom rom).enc = s.enc := rfl
@[simp] theorem withRom_dec (s : State) (rom : Rom) : (s.withRom rom).dec = s.dec := rfl
@[simp] theorem withRom_pending (s : State) (rom : Rom) : (s.withRom rom).pending = s.pending := rfl

/-! ### driveEnc -/

@[simp] theorem driveEnc_dataLen (s : State) (ports : EncPorts) : (s.driveEnc ports).dataLen = s.dataLen := rfl
@[simp] theorem driveEnc_extended (s : State) (ports : EncPorts) : (s.driveEnc ports).extended = s.extended := rfl
@[simp] theorem driveEnc_maxDataLen (s : State) (ports : EncPorts) : (s.driveEnc ports).maxDataLen = s.maxDataLen := rfl
@[simp] theorem driveEnc_p (s : State) (ports : EncPorts) : (s.driveEnc ports).p = s.p := rfl
@[simp] theorem driveEnc_n (s : State) (ports : EncPorts) : (s.driveEnc ports).n = s.n := rfl
@[simp] theorem driveEnc_m (s : State) (ports : EncPorts) : (s.driveEnc ports).m = s.m := rfl
@[simp] theorem driveEnc_k (s : State) (ports : EncPorts) : (s.driveEnc ports).k = s.k := rfl
@[simp] theorem driveEnc_posW (s : State) (ports : EncPorts) : (s.driveEnc ports).posW = s.posW := rfl
@[simp] theorem driveEnc_matrix (s : State) (ports : EncPorts) : (s.driveEnc ports).matrix = s.matrix := rfl
@[simp] theorem driveEnc_rom (s : State) (ports : EncPorts) : (s.driveEnc ports).rom = s.rom := rfl
@[simp] theorem driveEnc_enc (s : State) (ports : EncPorts) : (s.driveEnc ports).enc = some ports := rfl
@[simp] theorem driveEnc_dec (s : State) (ports : EncPorts) : (s.driveEnc ports).dec = s.dec := rfl
@[simp] theorem driveEnc_pending (s : State) (ports : EncPorts) : (s.driveEnc ports).pending = s.pending := rfl

/-! ### driveDec -/

@[simp] theorem driveDec_dataLen (s : State) (ports : DecPorts) : (s.driveDec ports).dataLen = s.dataLen := rfl
@[simp] theorem driveDec_extended (s : State) (ports : DecPorts) : (s.driveDec ports).extended = s.extended := rfl
@[simp] theorem driveDec_maxDataLen (s : State) (ports : DecPorts) : (s.driveDec ports).maxDataLen = s.maxDataLen := rfl
@[simp] theorem driveDec_p (s : State) (ports : DecPorts) : (s.driveDec ports).p = s.p := rfl
@[simp] theorem driveDec_n (s : State) (ports : DecPorts) : (s.driveDec ports).n = s.n := rfl
@[simp] theorem driveDec_m (s : State) (ports : DecPorts) : (s.driveDec ports).m = s.m := rfl
@[simp] theorem driveDec_k (s : State) (ports : DecPorts) : (s.driveDec ports).k = s.k := rfl
@[simp] theorem driveDec_posW (s : State) (ports : DecPorts) : (s.driveDec ports).posW = s.posW := rfl
@[simp] theorem driveDec_matrix (s : State) (ports : DecPorts) : (s.driveDec ports).matrix = s.matrix := rfl
@[simp] theorem driveDec_rom (s : State) (ports : DecPorts) : (s.driveDec ports).rom = s.rom := rfl
@[simp] theorem driveDec_enc (s : State) (ports : DecPorts) : (s.driveDec ports).enc = s.enc := rfl
@[simp] theorem driveDec_dec (s : State) (ports : DecPorts) : (s.driveDec ports).dec = some ports := rfl
@[simp] theorem driveDec_pending (s : State) (ports : DecPorts) : (s.driveDec ports).pending = s.pending := rfl

/-! ### withPending -/

@[simp] theorem withPending_dataLen (s : State) (bytes : List Byte) : (s.withPending bytes).dataLen = s.dataLen := rfl
@[simp] theorem withPending_extended (s : State) (bytes : List Byte) : (s.withPending bytes).extended = s.extended := rfl
@[simp] theorem withPending_maxDataLen (s : State) (bytes : List Byte) : (s.withPending bytes).maxDataLen = s.maxDataLen := rfl
@[simp] theorem withPending_p (s : State) (bytes : List Byte) : (s.withPending bytes).p = s.p := rfl
@[simp] theorem withPending_n (s : State) (bytes : List Byte) : (s.withPending bytes).n = s.n := rfl
@[simp] theorem withPending_m (s : State) (bytes : List Byte) : (s.withPending bytes).m = s.m := rfl
@[simp] theorem withPending_k (s : State) (bytes : List Byte) : (s.withPending bytes).k = s.k := rfl
@[simp] theorem withPending_posW (s : State) (bytes : List Byte) : (s.withPending bytes).posW = s.posW := rfl
@[simp] theorem withPending_matrix (s : State) (bytes : List Byte) : (s.withPending bytes).matrix = s.matrix := rfl
@[simp] theorem withPending_rom (s : State) (bytes : List Byte) : (s.withPending bytes).rom = s.rom := rfl
@[simp] theorem withPending_enc (s : State) (bytes : List Byte) : (s.withPending bytes).enc = s.enc := rfl
@[simp] theorem withPending_dec (s : State) (bytes : List Byte) : (s.withPending bytes).dec = s.dec := rfl
@[simp] theorem withPending_pending (s : State) (bytes : List Byte) : (s.withPending bytes).pending = bytes := rfl

/-! ### Derived views -/

@[simp] theorem withPending_elaborated (s : State) (bytes : List Byte) :
    (s.withPending bytes).elaborated = s.elaborated := rfl
@[simp] theorem driveEnc_elaborated (s : State) (ports : EncPorts) :
    (s.driveEnc ports).elaborated = s.elaborated := rfl
@[simp] theorem driveDec_elaborated (s : State) (ports : DecPorts) :
    (s.driveDec ports).elaborated = s.elaborated := rfl
@[simp] theorem withPlan_elaborated (s : State) (d : Nat) (e : Bool) (z : Sizes) :
    (s.withPlan d e z).elaborated = false := rfl
@[simp] theorem withFetchWord_pending (s : State) (nbits w : Nat) :
    (s.withFetchWord nbits w).pending = fetchBytes nbits w := rfl

/-- Driving the two sides in either order gives the same block. -/
theorem driveEnc_driveDec_comm (s : State) (pe : EncPorts) (pd : DecPorts) :
    (s.driveEnc pe).driveDec pd = (s.driveDec pd).driveEnc pe := rfl

/-- Only the last value driven on the encoder side stays. -/
theorem driveEnc_driveEnc (s : State) (pe pe' : EncPorts) :
    (s.driveEnc pe).driveEnc pe' = s.driveEnc pe' := rfl

/-- Only the last value driven on the decoder side stays. -/
theorem driveDec_driveDec (s : State) (pd pd' : DecPorts) :
    (s.driveDec pd).driveDec pd' = s.driveDec pd' := rfl

end Sys2Proof.Machine
end

