-- ==== Sys2Proof/Laws/Ops.lean ====
section
/-!
SUPPORT. For each shared operation, once, everything it can do; callers cite these.
-/
namespace Sys2Proof.Machine

/-! ### Sequencing -/

@[simp] theorem andThen_next (s : State) (k : State → Result) : andThen (.next s) k = k s := rfl
@[simp] theorem andThen_fault (f : Fault) (k : State → Result) :
    andThen (.fault f) k = .fault f := rfl
@[simp] theorem andThen_refused (r : Refusal) (k : State → Result) :
    andThen (.refused r) k = .refused r := rfl

/-- A sequence answers a state exactly when both of its parts do. -/
theorem andThen_eq_next {r : Result} {k : State → Result} {t : State} :
    andThen r k = .next t ↔ ∃ s, r = .next s ∧ k s = .next t := by
  cases r <;> simp [andThen]

/-! ### The checks before an operation -/

theorem whenBuildable_of_admits {s : State} {d : Nat} (k : Result)
    (h : Config.capAdmits s.maxDataLen d = true) : whenBuildable s d k = k := by
  unfold whenBuildable
  cases hc : s.maxDataLen with
  | none => rfl
  | some cap => simp_all [Config.capAdmits]

theorem whenBuildable_over {s : State} {d cap : Nat} (k : Result) (hc : s.maxDataLen = some cap)
    (h : cap < d) : whenBuildable s d k = .refused (.dataLenOverCap d cap) := by
  simp [whenBuildable, hc, Nat.not_le.mpr h]

/-- The cap check answers a state exactly when the cap admits DATA_LEN and what follows does. -/
theorem whenBuildable_eq_next {s t : State} {d : Nat} {k : Result} :
    whenBuildable s d k = .next t ↔ Config.capAdmits s.maxDataLen d = true ∧ k = .next t := by
  unfold whenBuildable
  cases hc : s.maxDataLen with
  | none => simp [Config.capAdmits]
  | some cap =>
    by_cases h : d ≤ cap <;> simp [Config.capAdmits, h]

theorem whenMatrixBuilt_eq_next {s t : State} {k : ParityMatrix → Result} :
    whenMatrixBuilt s k = .next t ↔ ∃ h, s.matrix = some h ∧ k h = .next t := by
  unfold whenMatrixBuilt
  cases s.matrix <;> simp

theorem whenElaborated_of_built {s : State} {h : ParityMatrix} {rom : Rom}
    (k : ParityMatrix → Rom → Result) (hm : s.matrix = some h) (hr : s.rom = some rom) :
    whenElaborated s k = k h rom := by
  simp [whenElaborated, hm, hr]

theorem elaborated_iff {s : State} :
    s.elaborated = true ↔ ∃ h rom, s.matrix = some h ∧ s.rom = some rom := by
  unfold State.elaborated
  cases s.matrix <;> cases s.rom <;> simp

theorem whenElaborated_not {s : State} (k : ParityMatrix → Rom → Result)
    (h : s.elaborated = false) : whenElaborated s k = .refused .notElaborated := by
  unfold State.elaborated at h
  unfold whenElaborated
  cases hm : s.matrix <;> cases hr : s.rom <;> simp_all

theorem whenElaborated_eq_next {s t : State} {k : ParityMatrix → Rom → Result} :
    whenElaborated s k = .next t ↔
      ∃ h rom, s.matrix = some h ∧ s.rom = some rom ∧ k h rom = .next t := by
  unfold whenElaborated
  cases s.matrix <;> cases s.rom <;> simp

theorem whenShape_of_length {v : Bits} {w : Nat} (k : Result) (h : v.length = w) :
    whenShape v w k = k := by
  simp [whenShape, h]

theorem whenShape_eq_next {v : Bits} {w : Nat} {k : Result} {t : State} :
    whenShape v w k = .next t ↔ v.length = w ∧ k = .next t := by
  unfold whenShape
  by_cases h : v.length = w <;> simp [h]

/-! ### Reading the constants -/

theorem romRead_set_eq {rom : Rom} {a : Nat} (entry : RomEntry) (h : a < rom.length) :
    romRead (rom.set a entry) a = entry := by
  unfold romRead
  rw [List.getD_eq_getElem?_getD, List.getElem?_set_self h, Option.getD_some]

theorem romRead_set_ne {rom : Rom} {a b : Nat} (entry : RomEntry) (h : a ≠ b) :
    romRead (rom.set a entry) b = romRead rom b := by
  unfold romRead
  rw [List.getD_eq_getElem?_getD, List.getElem?_set_ne h, ← List.getD_eq_getElem?_getD]

/-- A ROM of sentinels alone reads as the sentinel everywhere. -/
theorem romRead_replicate (size a : Nat) : romRead (List.replicate size sentinel) a = sentinel := by
  unfold romRead
  rw [List.getD_eq_getElem?_getD, List.getElem?_replicate]
  split <;> rfl

/-! ### What each operation does when it answers a state -/

/-- PLAN answers a state exactly when the cap admits DATA_LEN, and then the planned one. -/
theorem execPlan_eq_next {s t : State} {d : Nat} {e : Bool} :
    execPlan d e s = .next t ↔
      Config.capAdmits s.maxDataLen d = true ∧ t = s.withPlan d e (planSizes d e) := by
  unfold execPlan
  rw [whenBuildable_eq_next, Host.Outcome.next.injEq, eq_comm (b := t)]

/-- BUILD_MATRIX always answers the block with its matrix built. -/
theorem execBuildMatrix_eq (s : State) :
    execBuildMatrix s = .next (s.withMatrix (buildMatrix s.n s.k s.m s.extended)) := rfl

/-- BUILD_TABLE answers a state exactly when the matrix is built and no check fails. -/
theorem execBuildTable_eq_next {s t : State} :
    execBuildTable s = .next t ↔
      ∃ h rom, s.matrix = some h ∧ buildTable h s.k s.m s.extended = .ok rom ∧
        t = s.withRom rom := by
  unfold execBuildTable
  rw [whenMatrixBuilt_eq_next]
  constructor
  · rintro ⟨h, hm, hk⟩
    cases hb : buildTable h s.k s.m s.extended with
    | error cause => simp [hb, raiseConfigurationFault] at hk
    | ok rom =>
      simp only [hb, Host.Outcome.next.injEq] at hk
      exact ⟨h, rom, hm, hb, hk.symm⟩
  · rintro ⟨h, rom, hm, hb, rfl⟩
    exact ⟨h, hm, by simp [hb]⟩

/-- BUILD_TABLE faults exactly when a check fails on the matrix it reads. -/
theorem execBuildTable_eq_fault {s : State} {why : Fault} :
    execBuildTable s = .fault why ↔
      ∃ h cause, s.matrix = some h ∧ buildTable h s.k s.m s.extended = .error cause ∧
        why = .configurationFault cause := by
  unfold execBuildTable whenMatrixBuilt
  cases hm : s.matrix with
  | none => simp
  | some h =>
    cases hb : buildTable h s.k s.m s.extended with
    | error cause => simp [hb, raiseConfigurationFault, eq_comm]
    | ok rom => simp [hb]

/-- ENCODE answers a state exactly on an elaborated block and a vector of d bits. -/
theorem execEncode_eq_next {s t : State} {data : Bits} :
    execEncode data s = .next t ↔
      s.elaborated = true ∧ data.length = s.dataLen ∧
        t = s.driveEnc ⟨data, codewordOf s.k s.m s.extended data⟩ := by
  unfold execEncode
  rw [whenElaborated_eq_next, elaborated_iff]
  simp only [whenShape_eq_next, Host.Outcome.next.injEq]
  constructor
  · rintro ⟨h, rom, hm, hr, hl, rfl⟩
    exact ⟨⟨h, rom, hm, hr⟩, hl, rfl⟩
  · rintro ⟨⟨h, rom, hm, hr⟩, hl, rfl⟩
    exact ⟨h, rom, hm, hr, hl, rfl⟩

/-- DECODE answers a state exactly on an elaborated block and a vector of M bits. -/
theorem execDecode_eq_next {s t : State} {cw : Bits} :
    execDecode cw s = .next t ↔
      ∃ h rom, s.matrix = some h ∧ s.rom = some rom ∧ cw.length = s.m ∧
        t = s.driveDec (diagnose h rom s.k s.m s.posW s.extended cw) := by
  unfold execDecode
  rw [whenElaborated_eq_next]
  simp only [whenShape_eq_next, Host.Outcome.next.injEq, eq_comm (b := t)]

/-- Only BUILD_TABLE can fault. -/
theorem exec_fault_is_buildTable {i : Instr} {s : State} {why : Fault}
    (h : exec i s = .fault why) : i = .buildTable := by
  cases i with
  | plan d e =>
    simp only [exec, execPlan, whenBuildable] at h
    split at h
    · cases h
    · split at h <;> cases h
  | buildMatrix => cases h
  | buildTable => rfl
  | encode data =>
    simp only [exec, execEncode, whenElaborated, whenShape] at h
    split at h
    · split at h <;> cases h
    · cases h
  | decode cw =>
    simp only [exec, execDecode, whenElaborated, whenShape] at h
    split at h
    · split at h <;> cases h
    · cases h

/-- CONFIG answers a state exactly when the cap admits DATA_LEN and the table's checks pass. -/
theorem elaborate_eq_next {s t : State} {d : Nat} {e : Bool} :
    elaborate d e s = .next t ↔
      Config.capAdmits s.maxDataLen d = true ∧
        ∃ rom, buildTable (buildMatrix (planSizes d e).n (planSizes d e).k (planSizes d e).m e)
            (planSizes d e).k (planSizes d e).m e = .ok rom ∧
          t = ((s.withPlan d e (planSizes d e)).withMatrix
            (buildMatrix (planSizes d e).n (planSizes d e).k (planSizes d e).m e)).withRom rom := by
  unfold elaborate
  simp only [exec, andThen_eq_next, execPlan_eq_next, execBuildMatrix_eq, execBuildTable_eq_next,
    Host.Outcome.next.injEq]
  constructor
  · rintro ⟨_, ⟨hc, rfl⟩, _, rfl, h, rom, hm, hb, rfl⟩
    simp only [withMatrix_matrix, Option.some.injEq] at hm
    subst hm
    exact ⟨hc, rom, hb, rfl⟩
  · rintro ⟨hc, rom, hb, rfl⟩
    exact ⟨_, ⟨hc, rfl⟩, _, rfl, _, rom, rfl, hb, rfl⟩

end Sys2Proof.Machine
end

