-- ==== Sys2Proof/Laws/Construction.lean ====
section
/-!
SUPPORT. The spec lemmas of the elaboration operations' parts: sizes, MSB-first assembly, the
matrix, and the table's columns.
-/
namespace Sys2Proof.Machine

/-! ### Sizes -/

@[simp] theorem planSizes_p (d : Nat) (e : Bool) : (planSizes d e).p = parityCount d := rfl
@[simp] theorem planSizes_n (d : Nat) (e : Bool) :
    (planSizes d e).n = parityCount d + e.toNat := rfl
@[simp] theorem planSizes_m (d : Nat) (e : Bool) :
    (planSizes d e).m = d + (parityCount d + e.toNat) := rfl
@[simp] theorem planSizes_k (d : Nat) (e : Bool) : (planSizes d e).k = parityCount d := by
  simp [planSizes]
@[simp] theorem planSizes_posW (d : Nat) (e : Bool) :
    (planSizes d e).posW = max 1 (clog2 (d + (parityCount d + e.toNat))) := rfl

/-! ### MSB-first assembly -/

@[simp] theorem assemble_zero (row : Nat → Bool) : assemble 0 row = 0 := rfl

theorem assemble_succ (k : Nat) (row : Nat → Bool) :
    assemble (k + 1) row = 2 * assemble k row + (row k).toNat := by
  simp [assemble, List.range_succ]

/-- K bits assemble to a K-bit number. -/
theorem assemble_lt (k : Nat) (row : Nat → Bool) : assemble k row < 2 ^ k := by
  induction k with
  | zero => simp
  | succ k ih =>
    have : (row k).toNat ≤ 1 := Bool.toNat_le _
    rw [assemble_succ, Nat.pow_succ]
    omega

theorem assemble_congr {k : Nat} {row row' : Nat → Bool} (h : ∀ i < k, row i = row' i) :
    assemble k row = assemble k row' := by
  induction k with
  | zero => rfl
  | succ k ih =>
    rw [assemble_succ, assemble_succ, ih fun i hi => h i (by omega), h k (by omega)]

/-- Row `i` lands in bit K−1−i: row 0 is the most significant (42_decode.md R120). -/
theorem testBit_assemble {k i : Nat} (row : Nat → Bool) (h : i < k) :
    (assemble k row).testBit (k - 1 - i) = row i := by
  induction k with
  | zero => omega
  | succ k ih =>
    rw [assemble_succ]
    by_cases hi : i = k
    · subst hi
      rw [show i + 1 - 1 - i = 0 by omega, Nat.testBit_zero]
      cases row i <;> simp
    · have hik : i < k := by omega
      rw [show k + 1 - 1 - i = (k - 1 - i) + 1 by omega, Nat.testBit_add_one]
      have hdiv : (2 * assemble k row + (row k).toNat) / 2 = assemble k row := by
        have : (row k).toNat ≤ 1 := Bool.toNat_le _
        omega
      rw [hdiv, ih hik]

/-- Assembling the bits of a number, bit 0 first, reverses it (40_construction.md R91). -/
theorem assemble_testBit (k x : Nat) : (assemble k fun i => x.testBit i) = bitrev k x := by
  refine eq_of_testBit_below (assemble_lt _ _) (bitrev_lt _ _) fun i hi => ?_
  have h₁ := testBit_assemble (fun i => x.testBit i) (i := k - 1 - i) (k := k) (by omega)
  have h₂ := testBit_bitrev x (i := k - 1 - i) (k := k) (by omega)
  rw [show k - 1 - (k - 1 - i) = i by omega] at h₁ h₂
  rw [h₁, h₂]

/-! ### The matrix -/

@[simp] theorem nonExtendedRow_length (m : Nat) (e : Bool) (i : Nat) :
    (nonExtendedRow m e i).length = m := by
  simp [nonExtendedRow]

@[simp] theorem buildMatrix_length (n k m : Nat) (e : Bool) :
    (buildMatrix n k m e).length = n := by
  simp [buildMatrix]

theorem buildMatrix_columns {n k m : Nat} {e : Bool} {row : Bits}
    (h : row ∈ buildMatrix n k m e) : row.length = m := by
  simp only [buildMatrix, List.mem_map] at h
  obtain ⟨i, _, rfl⟩ := h
  split <;> simp

/-- A row of the matrix, as BUILD_MATRIX fills it. -/
theorem cell_buildMatrix_row {n k m i : Nat} (e : Bool) (j : Nat) (hi : i < n) :
    cell (buildMatrix n k m e) i j =
      elem (if i < k then nonExtendedRow m e i else List.replicate m true) j := by
  unfold cell buildMatrix
  rw [List.getD_eq_getElem?_getD]
  simp only [List.getElem?_map, List.getElem?_range hi, Option.map_some, Option.getD_some]

/-- A cell of a non-extended row (40_construction.md R85). -/
theorem cell_buildMatrix {n k m i j : Nat} (e : Bool) (hn : k ≤ n) (hi : i < k) (hj : j < m) :
    cell (buildMatrix n k m e) i j = (decide (j < m - e.toNat) && (j + 1).testBit i) := by
  rw [cell_buildMatrix_row e j (by omega), if_pos hi]
  unfold nonExtendedRow
  rw [elem_map_range hj]

/-- A cell of the extended row (40_construction.md R87). -/
theorem cell_buildMatrix_extended {n k m i j : Nat} (e : Bool) (hk : k ≤ i) (hn : i < n)
    (hj : j < m) : cell (buildMatrix n k m e) i j = true := by
  rw [cell_buildMatrix_row e j hn, if_neg (by omega), elem_eq_getElem (by simpa using hj)]
  simp

/-! ### The table -/

/-- Only the non-extended cells of a column are read (40_construction.md R90). -/
theorem columnSyndrome_congr {h h' : ParityMatrix} {k j : Nat}
    (hc : ∀ i < k, cell h i j = cell h' i j) : columnSyndrome h k j = columnSyndrome h' k j :=
  assemble_congr hc

/-- A column's syndrome has K bits, so the range check cannot fail (40_construction.md R92). -/
theorem columnSyndrome_lt (h : ParityMatrix) (k j : Nat) : columnSyndrome h k j < 2 ^ k :=
  assemble_lt _ _

/-- What BUILD_TABLE does at a column: the two checks that can fail, in their order, or the
entry. -/
theorem tableColumn_eq (h : ParityMatrix) (k : Nat) (rom : Rom) (j : Nat) :
    tableColumn h k rom j =
      if columnSyndrome h k j = 0 then .error (.syndromeZero j)
      else if (romRead rom (columnSyndrome h k j)).hit then
        .error (.syndromeDup j (romRead rom (columnSyndrome h k j)).col (columnSyndrome h k j))
      else .ok (rom.set (columnSyndrome h k j) (hitEntry j)) := by
  simp [tableColumn, columnSyndrome_lt]

theorem tableColumn_ok {h : ParityMatrix} {k j : Nat} {rom : Rom}
    (hz : columnSyndrome h k j ≠ 0) (hd : (romRead rom (columnSyndrome h k j)).hit = false) :
    tableColumn h k rom j = .ok (rom.set (columnSyndrome h k j) (hitEntry j)) := by
  rw [tableColumn_eq, if_neg hz, hd]
  rfl

/-- Columns one after another. -/
theorem tableColumns_append (h : ParityMatrix) (k : Nat) (js js' : List Nat) (rom : Rom) :
    tableColumns h k (js ++ js') rom =
      match tableColumns h k js rom with
      | .error cause => .error cause
      | .ok rom' => tableColumns h k js' rom' := by
  induction js generalizing rom with
  | nil => rfl
  | cons j js ih =>
    simp only [List.cons_append, tableColumns]
    cases tableColumn h k rom j with
    | error cause => rfl
    | ok rom' => exact ih rom'

/-- Columns with distinct, non-zero syndromes that meet no earlier entry pass every check; each
gets its entry and no other address changes (40_construction.md R90, R92). -/
theorem tableColumns_ok {h : ParityMatrix} {k : Nat} (js : List Nat) (rom : Rom)
    (hlen : rom.length = 2 ^ k) (hz : ∀ j ∈ js, columnSyndrome h k j ≠ 0)
    (hfree : ∀ j ∈ js, (romRead rom (columnSyndrome h k j)).hit = false)
    (hdist : js.Pairwise fun j j' => columnSyndrome h k j ≠ columnSyndrome h k j') :
    ∃ rom', tableColumns h k js rom = .ok rom' ∧ rom'.length = 2 ^ k ∧
      (∀ j ∈ js, romRead rom' (columnSyndrome h k j) = hitEntry j) ∧
      ∀ a, (∀ j ∈ js, columnSyndrome h k j ≠ a) → romRead rom' a = romRead rom a := by
  induction js generalizing rom with
  | nil => exact ⟨rom, rfl, hlen, by simp, fun _ _ => rfl⟩
  | cons j js ih =>
    obtain ⟨hj, hrest⟩ := List.pairwise_cons.mp hdist
    have hlt : columnSyndrome h k j < rom.length := hlen ▸ columnSyndrome_lt h k j
    have hfree' : ∀ j' ∈ js,
        (romRead (rom.set (columnSyndrome h k j) (hitEntry j)) (columnSyndrome h k j')).hit =
          false := by
      intro j' hj'
      rw [romRead_set_ne _ (hj j' hj')]
      exact hfree j' (List.mem_cons_of_mem _ hj')
    obtain ⟨rom', hok, hlen', hhit, hother⟩ :=
      ih (rom.set (columnSyndrome h k j) (hitEntry j)) (by simpa using hlen)
        (fun j' hj' => hz j' (List.mem_cons_of_mem _ hj')) hfree' hrest
    refine ⟨rom', ?_, hlen', ?_, ?_⟩
    · simp only [tableColumns,
        tableColumn_ok (hz j List.mem_cons_self) (hfree j List.mem_cons_self), hok]
    · intro j' hj'
      rcases List.mem_cons.mp hj' with rfl | hj'
      · rw [hother _ fun i hi => (hj i hi).symm, romRead_set_eq _ hlt]
      · exact hhit j' hj'
    · intro a ha
      rw [hother a fun i hi => ha i (List.mem_cons_of_mem _ hi),
        romRead_set_ne _ (ha j List.mem_cons_self)]

/-- The table reads only the non-extended rows (10_state.md R27). -/
theorem buildTable_congr {h h' : ParityMatrix} {k : Nat} (m : Nat) (e : Bool)
    (hc : ∀ i < k, ∀ j, cell h i j = cell h' i j) : buildTable h k m e = buildTable h' k m e := by
  have hcol : ∀ j, columnSyndrome h k j = columnSyndrome h' k j :=
    fun j => columnSyndrome_congr fun i hi => hc i hi j
  have hcols : ∀ js rom, tableColumns h k js rom = tableColumns h' k js rom := by
    intro js
    induction js with
    | nil => intro rom; rfl
    | cons j js ih =>
      intro rom
      simp only [tableColumns, tableColumn_eq, hcol j, ih]
  exact hcols _ _

end Sys2Proof.Machine
end

