-- ==== Sys2Proof/Laws/Decode.lean ====
section
/-!
SUPPORT. The spec lemmas of the byte form's parts: numbers and vectors (log 1).
-/
namespace Sys2Proof

theorem encodeNumberFrom_small {fuel x : Nat} (h : x < 128) :
    encodeNumberFrom fuel x = [BitVec.ofNat 8 x] := by
  cases fuel <;> simp [encodeNumberFrom, h]

/-- Decoding a number's bytes gives the number and leaves what follows. -/
theorem decodeNumber_encodeNumberFrom (fuel x : Nat) (hf : x ≤ fuel) (rest : List Byte) :
    decodeNumber (encodeNumberFrom fuel x ++ rest) = .ok (x, rest) := by
  induction fuel generalizing x with
  | zero =>
    obtain rfl : x = 0 := Nat.le_zero.mp hf
    rfl
  | succ fuel ih =>
    by_cases hx : x < 128
    · rw [encodeNumberFrom_small hx]
      have hb : (BitVec.ofNat 8 x).toNat = x := by
        rw [BitVec.toNat_ofNat]
        omega
      simp [decodeNumber, hb, hx]
    · have hb : (BitVec.ofNat 8 (128 + x % 128)).toNat = 128 + x % 128 := by
        rw [BitVec.toNat_ofNat]
        omega
      have hge : ¬ 128 + x % 128 < 128 := by omega
      have hhigh : x / 128 ≠ 0 := by omega
      rw [encodeNumberFrom, if_neg hx, List.cons_append, decodeNumber, hb, if_neg hge,
        ih (x / 128) (by omega)]
      simp only [if_neg hhigh]
      congr 2
      omega

/-- Decoding a number's bytes gives the number and leaves what follows. -/
theorem decodeNumber_encodeNumber (x : Nat) (rest : List Byte) :
    decodeNumber (encodeNumber x ++ rest) = .ok (x, rest) :=
  decodeNumber_encodeNumberFrom x x (Nat.le_refl x) rest

/-- Decoding a vector's bytes gives the vector and leaves what follows. -/
theorem decodeVector_encodeVector (v : Bits) (rest : List Byte) :
    decodeVector (encodeVector v ++ rest) = .ok (v, rest) := by
  simp only [decodeVector, encodeVector, List.append_assoc, decodeNumber_encodeNumber,
    Machine.bitsToNat_lt, if_true, Machine.natToBits_bitsToNat]

/-- No bytes stand for no operation. -/
theorem decode_nil : decode [] = .error .truncated := rfl

end Sys2Proof
end

