-- ==== Sys2Proof/Laws/Decoder.lean ====
section
/-!
SUPPORT. The spec lemmas of DECODE's parts: the syndrome and the classification.
-/
namespace Sys2Proof.Machine

theorem syndrome_lt (h : ParityMatrix) (k m : Nat) (cw : Bits) : syndrome h k m cw < 2 ^ k :=
  assemble_lt _ _

/-- The check of row `i` lands in element K−1−i (42_decode.md R120). -/
theorem testBit_syndrome {h : ParityMatrix} {k m i : Nat} (cw : Bits) (hi : i < k) :
    (syndrome h k m cw).testBit (k - 1 - i) = rowCheck h m i cw :=
  testBit_assemble _ hi

/-- The syndrome reads the non-extended rows only (10_state.md R27). -/
theorem syndrome_congr {h h' : ParityMatrix} {k : Nat} (m : Nat) (cw : Bits)
    (hc : ∀ i < k, ∀ j, cell h i j = cell h' i j) :
    syndrome h k m cw = syndrome h' k m cw := by
  refine assemble_congr fun i hi => ?_
  simp only [rowCheck, hc i hi]

theorem lookup_hit {rom : Rom} {syn : Nat} (h : (romRead rom syn).hit = true) :
    lookup rom syn = (.singleBitCorrectable, (romRead rom syn).col) := by
  simp [lookup, h]

theorem lookup_miss {rom : Rom} {syn : Nat} (h : (romRead rom syn).hit = false) :
    lookup rom syn = (.indeterminate, 0) := by
  simp [lookup, h]

/-- CLASSIFY without the extended bit (42_decode.md R122). -/
theorem classify_plain (rom : Rom) (m : Nat) (op : Bool) (syn : Nat) :
    classify rom m false op syn = if syn = 0 then (.noError, 0) else lookup rom syn := rfl

/-- CLASSIFY with the extended bit, row by row (42_decode.md R124). -/
theorem classify_global (rom : Rom) (m : Nat) :
    classify rom m true true 0 = (.singleBitCorrectable, m - 1) := rfl

theorem classify_odd {rom : Rom} {m syn : Nat} (h : syn ≠ 0) :
    classify rom m true true syn = lookup rom syn := by
  simp [classify, h]

theorem classify_clean (rom : Rom) (m : Nat) : classify rom m true false 0 = (.noError, 0) := rfl

theorem classify_even {rom : Rom} {m syn : Nat} (h : syn ≠ 0) :
    classify rom m true false syn = (.doubleBitDetected, 0) := by
  simp [classify, h]

/-! ### What DECODE drives -/

section
variable (h : ParityMatrix) (rom : Rom) (k m posW : Nat) (e : Bool) (cw : Bits)

@[simp] theorem diagnose_cw : (diagnose h rom k m posW e cw).cw = cw := rfl
@[simp] theorem diagnose_kind : (diagnose h rom k m posW e cw).kind =
    (classify rom m e (overallParity e cw) (syndrome h k m cw)).1.code := rfl
@[simp] theorem diagnose_pos : (diagnose h rom k m posW e cw).pos =
    natToBits posW (classify rom m e (overallParity e cw) (syndrome h k m cw)).2 := rfl
@[simp] theorem diagnose_syndrome :
    (diagnose h rom k m posW e cw).syndrome = natToBits k (syndrome h k m cw) := rfl
@[simp] theorem diagnose_overallParity :
    (diagnose h rom k m posW e cw).overallParity = overallParity e cw := rfl

/-- The number a host reads on `dec_syndrome` is the syndrome. -/
theorem bitsToNat_diagnose_syndrome :
    bitsToNat (diagnose h rom k m posW e cw).syndrome = syndrome h k m cw := by
  rw [diagnose_syndrome, bitsToNat_natToBits_of_lt (syndrome_lt h k m cw)]

end

/-- Two matrices with the same non-extended cells give the same diagnosis (10_state.md R27). -/
theorem diagnose_congr {h h' : ParityMatrix} {k : Nat} (rom : Rom) (m posW : Nat) (e : Bool)
    (cw : Bits) (hc : ∀ i < k, ∀ j, cell h i j = cell h' i j) :
    diagnose h rom k m posW e cw = diagnose h' rom k m posW e cw := by
  simp only [diagnose, syndrome_congr m cw hc]

end Sys2Proof.Machine
end

