-- ==== Sys2Proof/Laws/Encoder.lean ====
section
/-!
SUPPORT. The spec lemmas of ENCODE's parts: the walk, the parity bits, the global bit.
-/
namespace Sys2Proof.Machine

/-- The walk answers one element a position. -/
theorem placeData_length (k : Nat) (ps : List Nat) (data : Bits) (acc : Nat) :
    (placeData k ps data acc).1.length = ps.length := by
  induction ps generalizing data acc with
  | nil => rfl
  | cons pos ps ih =>
    unfold placeData
    split
    · simp [ih]
    · cases data <;> simp [ih]

/-- The walk gives the data positions the data bits in order (41_encode.md R100). -/
theorem placeData_data (k : Nat) (ps : List Nat) (data : Bits) (acc : Nat)
    (hl : data.length = (ps.filter fun q => !isPow2 q).length) :
    ((ps.zip (placeData k ps data acc).1).filter fun x => !isPow2 x.1) =
      (ps.filter fun q => !isPow2 q).zip data := by
  induction ps generalizing data acc with
  | nil => rfl
  | cons pos ps ih =>
    unfold placeData
    by_cases hp : isPow2 pos = true
    · have hl' : data.length = (ps.filter fun q => !isPow2 q).length := by simpa [hp] using hl
      simp [hp, ih data acc hl']
    · cases data with
      | nil => simp [hp] at hl
      | cons b data =>
        have hl' : data.length = (ps.filter fun q => !isPow2 q).length := by simpa [hp] using hl
        simp [hp, ih data _ hl']

/-- The walk leaves 0 at the powers of two (41_encode.md R100). -/
theorem placeData_reserved (k : Nat) (ps : List Nat) (data : Bits) (acc : Nat) :
    ∀ x ∈ ps.zip (placeData k ps data acc).1, isPow2 x.1 = true → x.2 = false := by
  induction ps generalizing data acc with
  | nil => simp
  | cons pos ps ih =>
    unfold placeData
    by_cases hp : isPow2 pos = true
    · simp only [hp, if_true, List.zip_cons_cons, List.mem_cons]
      rintro x (rfl | hx) h
      · rfl
      · exact ih data acc x hx h
    · cases data with
      | nil =>
        simp only [hp, Bool.false_eq_true, if_false, List.zip_cons_cons, List.mem_cons]
        rintro x (rfl | hx) h
        · rfl
        · exact ih [] acc x hx h
      | cons b data =>
        simp only [hp, Bool.false_eq_true, if_false, List.zip_cons_cons, List.mem_cons]
        rintro x (rfl | hx) h
        · exact absurd h hp
        · exact ih data _ x hx h

/-- The accumulator is the xor of the masked positions of the data bits that are 1
(41_encode.md R101). -/
theorem placeData_acc (k : Nat) (ps : List Nat) (data : Bits) (acc : Nat) :
    (placeData k ps data acc).2 =
      ((ps.filter fun q => !isPow2 q).zip data).foldl
        (fun a x => if x.2 then a ^^^ (x.1 % 2 ^ k) else a) acc := by
  induction ps generalizing data acc with
  | nil => rfl
  | cons pos ps ih =>
    unfold placeData
    by_cases hp : isPow2 pos = true
    · simp [hp, ih data acc]
    · cases data with
      | nil =>
        simp only [hp, Bool.not_false, List.filter_cons_of_pos, List.zip_nil_right,
          List.foldl_nil]
        simpa using ih [] acc
      | cons b data => simp [hp, ih data _]

theorem placeParity_succ (k acc : Nat) (cw : Bits) :
    placeParity (k + 1) acc cw = (placeParity k acc cw).set (2 ^ k - 1) (acc.testBit k) := by
  simp [placeParity, List.range_succ]

@[simp] theorem placeParity_length (k acc : Nat) (cw : Bits) :
    (placeParity k acc cw).length = cw.length := by
  induction k with
  | zero => rfl
  | succ k ih => rw [placeParity_succ, List.length_set, ih]

/-- Parity placement leaves every index but the 2^i − 1 alone (41_encode.md R102). -/
theorem elem_placeParity_other {k acc j : Nat} {cw : Bits} (h : ∀ i < k, j ≠ 2 ^ i - 1) :
    elem (placeParity k acc cw) j = elem cw j := by
  induction k with
  | zero => rfl
  | succ k ih =>
    rw [placeParity_succ, elem_set_ne _ (h k (Nat.lt_succ_self k)).symm,
      ih fun i hi => h i (by omega)]

/-- Index 2^i − 1 receives bit i of the accumulator (41_encode.md R102). -/
theorem elem_placeParity_parity {k acc i : Nat} {cw : Bits} (hi : i < k)
    (hl : 2 ^ i - 1 < cw.length) : elem (placeParity k acc cw) (2 ^ i - 1) = acc.testBit i := by
  induction k with
  | zero => omega
  | succ k ih =>
    rw [placeParity_succ]
    by_cases hik : i = k
    · subst hik
      rw [elem_set_eq _ (by simpa using hl)]
    · have hlt : i < k := by omega
      have hpow : 2 ^ i < 2 ^ k := Nat.pow_lt_pow_right (by decide) hlt
      have hpos : 0 < 2 ^ i := Nat.two_pow_pos i
      rw [elem_set_ne _ (by omega), ih hlt]

@[simp] theorem placeGlobal_length (e : Bool) (m : Nat) (cw : Bits) :
    (placeGlobal e m cw).length = cw.length := by
  cases e <;> simp [placeGlobal]

/-- The global bit's placement leaves every other index alone (41_encode.md R103). -/
theorem elem_placeGlobal_other {e : Bool} {m j : Nat} {cw : Bits} (h : e = true → j ≠ m - 1) :
    elem (placeGlobal e m cw) j = elem cw j := by
  cases e with
  | false => rfl
  | true => exact elem_set_ne _ (h rfl).symm

@[simp] theorem codewordOf_length (k m : Nat) (e : Bool) (data : Bits) :
    (codewordOf k m e data).length = m := by
  simp [codewordOf, placeData_length, positions]

end Sys2Proof.Machine
end

