-- ==== Sys2Proof/Laws/HostScript.lean ====
section
/-!
SUPPORT. The laws of the host's variables and of CORRECT and EXTRACT as functions.
-/
namespace Sys2Proof.Machine

/-- A variable reads as what was bound to it last. -/
@[simp] theorem readVar_bindVar_self (vars : List (Var × Value)) (v : Var) (x : Value) :
    readVar (bindVar vars v x) v = .ok x := by
  simp [readVar, bindVar]

theorem lookup_filter_ne {v w : Var} (vars : List (Var × Value)) (h : w ≠ v) :
    (vars.filter fun entry => entry.1 != v).lookup w = vars.lookup w := by
  induction vars with
  | nil => rfl
  | cons entry vars ih =>
    obtain ⟨u, x⟩ := entry
    by_cases hu : u = v
    · have hw : (w == u) = false := by simp [hu, h]
      simp [hu, List.lookup_cons, ih, hu ▸ hw]
    · simp [hu, List.lookup_cons, ih]

/-- Binding a variable leaves every other one alone. -/
theorem readVar_bindVar_other {v w : Var} (vars : List (Var × Value)) (x : Value) (h : w ≠ v) :
    readVar (bindVar vars v x) w = readVar vars w := by
  have hw : (w == v) = false := by simp [h]
  simp only [readVar, bindVar, List.lookup_cons, hw, lookup_filter_ne vars h]

theorem correctWith_located {cw : Bits} {r : Diagnosis} (h : r.kind = .singleBitCorrectable) :
    correctWith cw r = flipBit cw r.pos := by
  simp [correctWith, h]

theorem correctWith_other {cw : Bits} {r : Diagnosis} (h : r.kind ≠ .singleBitCorrectable) :
    correctWith cw r = cw := by
  simp [correctWith, h]

@[simp] theorem correctWith_length (cw : Bits) (r : Diagnosis) :
    (correctWith cw r).length = cw.length := by
  unfold correctWith
  split <;> simp

@[simp] theorem extractData_length (d : Nat) (cw : Bits) : (extractData d cw).length = d := by
  simp [extractData]

theorem elem_extractData {d t : Nat} (cw : Bits) (h : t < d) :
    elem (extractData d cw) t = elem cw (dataPos t - 1) :=
  elem_map_range h

end Sys2Proof.Machine
end

