-- ==== Sys2Proof/Laws/Invariant.lean ====
section
/-!
SUPPORT. What the invariant's parts give, and what PLAN and BUILD_MATRIX establish of it.
-/
namespace Sys2Proof.Machine

/-- The syndrome width is the number of non-extended parity bits (40_construction.md R82). -/
theorem State.PlanInv.k_eq_p {s : State} (h : s.PlanInv) : s.k = s.p := by
  have := h.n_eq
  have := h.k_eq
  omega

theorem State.PlanInv.k_le_n {s : State} (h : s.PlanInv) : s.k ≤ s.n := by
  have := h.k_eq
  omega

/-- A codeword without its global bit has d + K bits (40_construction.md R81, R82). -/
theorem State.PlanInv.m_without_global {s : State} (h : s.PlanInv) :
    s.m - s.extended.toNat = s.dataLen + s.k := by
  have := h.n_eq
  have := h.m_eq
  have := h.k_eq
  omega

/-- The row after the non-extended ones is the last one, and exists when e = 1. -/
theorem State.PlanInv.extended_row {s : State} (h : s.PlanInv) (he : s.extended = true) :
    s.n = s.k + 1 := by
  have h₁ := h.n_eq
  have h₂ := h.k_eq
  rw [he, Bool.toNat_true] at h₁ h₂
  omega

/-- The part of the invariant about sizes reads nothing else. -/
theorem State.PlanInv.congr {s t : State} (h : s.PlanInv) (h₁ : t.dataLen = s.dataLen)
    (h₂ : t.extended = s.extended) (h₃ : t.maxDataLen = s.maxDataLen) (h₄ : t.p = s.p)
    (h₅ : t.n = s.n) (h₆ : t.m = s.m) (h₇ : t.k = s.k) (h₈ : t.posW = s.posW) : t.PlanInv := by
  obtain ⟨a, b, c, d, e, f, g, i, j⟩ := h
  constructor <;> simp only [h₁, h₂, h₃, h₄, h₅, h₆, h₇, h₈] <;> assumption

/-- PLAN establishes the sizes of the configuration. -/
theorem planInv_withPlan {s : State} {d : Nat} (e : Bool)
    (hc : Config.capAdmits s.maxDataLen d = true) :
    (s.withPlan d e (planSizes d e)).PlanInv where
  buildable := hc
  p_enough := parityCount_enough d
  p_least := fun _ hq => parityCount_least hq
  n_eq := rfl
  m_eq := rfl
  k_eq := rfl
  posW_pos := Nat.le_max_left _ _
  posW_enough := by
    simp only [withPlan_m, withPlan_posW, planSizes_m, planSizes_posW]
    exact Nat.le_trans (clog2_enough _)
      (Nat.pow_le_pow_right (by decide) (Nat.le_max_right _ _))
  posW_least := by
    simp only [withPlan_m, withPlan_posW, planSizes_m, planSizes_posW]
    by_cases h : clog2 (d + (parityCount d + e.toNat)) ≤ 1
    · exact .inl (Nat.max_eq_left h)
    · rw [Nat.max_eq_right (by omega)]
      exact .inr (clog2_least (by omega))

/-- BUILD_MATRIX establishes the matrix of the configuration. -/
theorem matrixInv_buildMatrix {s : State} (h : s.PlanInv) :
    s.MatrixInv (buildMatrix s.n s.k s.m s.extended) where
  rows := buildMatrix_length _ _ _ _
  columns := fun _ hrow => buildMatrix_columns hrow
  nonExtended := fun _ hi _ hj => cell_buildMatrix _ h.k_le_n hi hj
  extendedRow := by
    intro he j hj
    have := h.extended_row he
    exact cell_buildMatrix_extended _ (by omega) (by omega) hj

/-- The syndrome of a column of the configuration's matrix is its reversed position
(40_construction.md R91). -/
theorem columnSyndrome_of_matrixInv {s : State} {h : ParityMatrix} (hm : s.MatrixInv h) {j : Nat}
    (hj : j < s.m - s.extended.toNat) : columnSyndrome h s.k j = bitrev s.k (j + 1) := by
  rw [← assemble_testBit]
  refine assemble_congr fun i hi => ?_
  rw [hm.nonExtended i hi j (by omega)]
  simp [hj]

end Sys2Proof.Machine
end

