-- ==== Sys2Proof/Laws/PerInstr.lean ====
section
/-!
SUPPORT. Facts about each operation as syntax: one lemma a constructor.
-/
namespace Sys2Proof.Laws.EncodeSelector

/-- The bytes of an operation begin with its selector, and the selector is the place of its row
among the five rows of opcode_table.json (log 1). -/
def Statement (i : Instr) : Prop :=
  (encode i).head? = some (selector i) ∧ (selector i).toNat < 5

theorem plan (dataLen : Nat) (extended : Bool) : Statement (.plan dataLen extended) :=
  ⟨rfl, by simp [selector]⟩

theorem buildMatrix : Statement .buildMatrix := ⟨rfl, by simp [selector]⟩

theorem buildTable : Statement .buildTable := ⟨rfl, by simp [selector]⟩

theorem encode (data : Bits) : Statement (.encode data) := ⟨rfl, by simp [selector]⟩

theorem decode (cw : Bits) : Statement (.decode cw) := ⟨rfl, by simp [selector]⟩

end Sys2Proof.Laws.EncodeSelector
end

