-- ==== Sys2Proof/Laws/Step.lean ====
section
/-!
SUPPORT. What a step can do: it leaves an idle block alone, or runs the operation it takes off the
host's queue.
-/
namespace Sys2Proof.Machine

theorem step_idle {s : State} (h : s.pending = []) : step s = .next s := by
  simp [step, h]

theorem step_decoded {s : State} {i : Instr} {rest : List Byte}
    (h : decode s.pending = .ok (i, rest)) : step s = exec i (s.withPending rest) := by
  unfold step
  cases hp : s.pending with
  | nil => simp [hp, decode] at h
  | cons b bytes => rw [hp] at h; simp [h]

theorem step_undecodable {s : State} {why : DecodeError} (hne : s.pending ≠ [])
    (h : decode s.pending = .error why) : step s = .refused (.undecodable why) := by
  unfold step
  cases hp : s.pending with
  | nil => exact absurd hp hne
  | cons b bytes => rw [hp] at h; simp [h]

/-- A step that answers a state was idle, or ran one decoded operation. -/
theorem step_eq_next {s t : State} (h : step s = .next t) :
    (s.pending = [] ∧ t = s) ∨
      ∃ i rest, decode s.pending = .ok (i, rest) ∧ exec i (s.withPending rest) = .next t := by
  unfold step at h
  cases hp : s.pending with
  | nil => simp only [hp, Host.Outcome.next.injEq] at h; exact .inl ⟨rfl, h.symm⟩
  | cons b bytes =>
    cases hd : decode (b :: bytes) with
    | error why => simp [hp, hd] at h
    | ok found => simp only [hp, hd] at h; exact .inr ⟨found.1, found.2, rfl, h⟩

/-- A step that faults ran a BUILD_TABLE. -/
theorem step_eq_fault {s : State} {why : Fault} (h : step s = .fault why) :
    ∃ rest, decode s.pending = .ok (.buildTable, rest) ∧
      execBuildTable (s.withPending rest) = .fault why := by
  unfold step at h
  cases hp : s.pending with
  | nil => simp [hp] at h
  | cons b bytes =>
    cases hd : decode (b :: bytes) with
    | error why => simp [hp, hd] at h
    | ok found =>
      simp only [hp, hd] at h
      obtain ⟨i, rest⟩ := found
      obtain rfl := exec_fault_is_buildTable h
      exact ⟨rest, rfl, h⟩

end Sys2Proof.Machine
end

