-- ==== Sys2Proof/Tests/Slice0.lean ====
section
/-!
SUPPORT. The model's own tests. Expected values are those of spec/95_test_vectors.md and of the
tables in 30_encoding.md, 40_construction.md and 41_encode.md, cited at each test; the byte words
are written out by hand from the byte form of log 1. The second part gives, for every statement
with hypotheses, a concrete state and operands that meet them.
-/
namespace Sys2Proof.Tests
open Sys2Proof.Machine

/-! ## Helpers -/

/-- A list form literal (00_scope.md R12), written as the digits' list. -/
def bits (digits : List Nat) : Bits := digits.map (· == 1)

/-- The state an operation answers. -/
def nextState (r : Result) : Option State :=
  match r with
  | .next s => some s
  | .fault _ => none
  | .refused _ => none

/-- The fault an operation ends in. -/
def faultOf (r : Result) : Option Fault :=
  match r with
  | .next _ => none
  | .fault f => some f
  | .refused _ => none

/-- The refusal an operation ends in. -/
def refusalOf (r : Result) : Option Refusal :=
  match r with
  | .next _ => none
  | .fault _ => none
  | .refused why => some why

/-- The block of a configuration, elaborated from reset. -/
def block (d : Nat) (e : Bool) : State := (nextState (elaborate d e State.reset)).getD State.reset

/-- `enc_cw` after an ENCODE. -/
def encoded (d : Nat) (e : Bool) (data : Bits) : Option Bits :=
  (nextState (exec (.encode data) (block d e))).bind fun s => s.enc.map fun ports => ports.cw

/-- What the host reads after a DECODE. -/
def decoded (d : Nat) (e : Bool) (cw : Bits) : Option Diagnosis :=
  (nextState (exec (.decode cw) (block d e))).bind fun s => s.dec.map fun ports => ports.read

/-! ## The byte form (log 1): words written by hand, one for every constructor -/

theorem test_decode_plan : decode [0x00, 0x01, 0x0B] = .ok (.plan 11 true, []) := by decide

/-- DATA_LEN 300 = 2 · 128 + 44 takes two groups: 0x80 + 44, then 2. -/
theorem test_decode_plan_two_groups :
    decode [0x00, 0x00, 0xAC, 0x02, 0x07] = .ok (.plan 300 false, [0x07]) := by decide

theorem test_decode_buildMatrix : decode [0x01, 0x02] = .ok (.buildMatrix, [0x02]) := by decide

theorem test_decode_buildTable : decode [0x02] = .ok (.buildTable, []) := by decide

/-- list:1011 is port:0b1101 (95_test_vectors.md L1.1). -/
theorem test_decode_encode : decode [0x03, 0x04, 0x0D] = .ok (.encode (bits [1, 0, 1, 1]), []) := by
  decide

/-- list:0100011 is port:0b1100010 (95_test_vectors.md L1.1). -/
theorem test_decode_decode :
    decode [0x04, 0x07, 0x62] = .ok (.decode (bits [0, 1, 0, 0, 0, 1, 1]), []) := by decide

theorem test_decode_unknown : decode [0x05, 0x00] = .error (.unknownSelector 0x05) := by decide

theorem test_decode_truncated : decode [0x03, 0x04] = .error .truncated := by decide

theorem test_decode_extended_not_a_bit :
    decode [0x00, 0x02, 0x04] = .error (.extendedNotABit 0x02) := by decide

theorem test_decode_not_canonical :
    decode [0x00, 0x00, 0x84, 0x00] = .error .numberNotCanonical := by decide

theorem test_decode_too_wide : decode [0x03, 0x02, 0x04] = .error (.valueTooWide 2 4) := by decide

theorem test_encode_words :
    encode (.plan 300 false) = [0x00, 0x00, 0xAC, 0x02] ∧ encode .buildMatrix = [0x01] ∧
      encode .buildTable = [0x02] ∧ encode (.encode (bits [1, 0, 1, 1])) = [0x03, 0x04, 0x0D] ∧
      encode (.decode []) = [0x04, 0x00, 0x00] := by decide

theorem test_table_word :
    decodeTableWord 8 0x01 = some .buildMatrix ∧
      decodeTableWord 24 0x0D0403 = some (.encode (bits [1, 0, 1, 1])) ∧
      decodeTableWord 8 0x05 = none := by decide

/-! ## WellFormed: an ill-formed term for each check -/

theorem test_wellFormed_cap :
    (Instr.plan 5 true).wellFormed ⟨some 4, 0, 0⟩ = false ∧
      (Instr.plan 4 true).wellFormed ⟨some 4, 0, 0⟩ = true := by decide

theorem test_wellFormed_data_width :
    (Instr.encode (bits [1, 0, 1])).wellFormed ⟨none, 4, 7⟩ = false ∧
      (Instr.encode (bits [1, 0, 1, 1])).wellFormed ⟨none, 4, 7⟩ = true := by decide

theorem test_wellFormed_codeword_width :
    (Instr.decode (bits [0, 1, 1, 0, 0, 1, 1, 0])).wellFormed ⟨none, 4, 7⟩ = false ∧
      (Instr.decode (bits [0, 1, 1, 0, 0, 1, 1])).wellFormed ⟨none, 4, 7⟩ = true := by decide

/-! ## The operations, against the spec's vectors -/

/-- 95_test_vectors.md L2.1, the rows d = 12, e = 1 and d = 247, e = 1. -/
theorem test_plan_sizes :
    planSizes 12 true = ⟨5, 6, 18, 5, 5⟩ ∧ planSizes 247 true = ⟨8, 9, 256, 8, 8⟩ := by decide

/-- 95_test_vectors.md L2.1, d = 0 (90_conflicts.md C1). -/
theorem test_plan_zero :
    planSizes 0 false = ⟨0, 0, 0, 0, 1⟩ ∧ planSizes 0 true = ⟨0, 1, 1, 0, 1⟩ := by decide

/-- 95_test_vectors.md L2.2: d = 5, e = 1; the global column is 0 in rows 0 to 3
(90_conflicts.md C3). -/
theorem test_buildMatrix_global_column :
    (block 5 true).matrix = some
      [bits [1, 0, 1, 0, 1, 0, 1, 0, 1, 0], bits [0, 1, 1, 0, 0, 1, 1, 0, 0, 0],
       bits [0, 0, 0, 1, 1, 1, 1, 0, 0, 0], bits [0, 0, 0, 0, 0, 0, 0, 1, 1, 0],
       bits [1, 1, 1, 1, 1, 1, 1, 1, 1, 1]] := by decide

/-- 95_test_vectors.md L2.3: d = 2, e = 0. -/
theorem test_buildTable_misses :
    (block 2 false).rom = some
      [⟨false, 0⟩, ⟨true, 3⟩, ⟨true, 1⟩, ⟨false, 0⟩, ⟨true, 0⟩, ⟨true, 4⟩, ⟨true, 2⟩,
       ⟨false, 0⟩] := by decide

/-- 41_encode.md R107: d = 4, e = 1, data 1011. -/
theorem test_encode_extended :
    encoded 4 true (bits [1, 0, 1, 1]) = some (bits [0, 1, 1, 0, 0, 1, 1, 0]) := by decide

/-- 95_test_vectors.md L2.4: d = 5, e = 1, data 10101. -/
theorem test_encode_five :
    encoded 5 true (bits [1, 0, 1, 0, 1]) = some (bits [0, 0, 1, 1, 0, 1, 0, 1, 1, 1]) := by decide

/-- 95_test_vectors.md L1.1: d = 4, e = 0, position 3 flipped. -/
theorem test_decode_single :
    decoded 4 false (bits [0, 1, 0, 0, 0, 1, 1]) = some ⟨.singleBitCorrectable, 2, 6, false⟩ := by
  decide

/-- 95_test_vectors.md L2.5.4: d = 2, e = 1, flips 2, 3, 5: a ROM miss (90_conflicts.md C5). -/
theorem test_decode_miss :
    decoded 2 true (bits [1, 1, 0, 1, 0, 0]) = some ⟨.indeterminate, 0, 7, true⟩ := by decide

/-- 95_test_vectors.md L3.3, CORRECT taken: index 2 is flipped. -/
theorem test_script_correct_taken :
    runStmt (.correct 0 1) ⟨State.reset,
        [(0, .vector (bits [1, 0, 1, 0, 0, 1, 1])),
         (1, .record ⟨.singleBitCorrectable, 2, 6, false⟩)]⟩ =
      .ok ⟨State.reset,
        [(0, .vector (bits [1, 0, 0, 0, 0, 1, 1])),
         (1, .record ⟨.singleBitCorrectable, 2, 6, false⟩)]⟩ := by decide

/-- 95_test_vectors.md L3.4, CORRECT not taken. -/
theorem test_script_correct_not_taken :
    runStmt (.correct 0 1) ⟨State.reset,
        [(0, .vector (bits [1, 1, 0, 1, 0])), (1, .record ⟨.indeterminate, 0, 7, false⟩)]⟩ =
      .ok ⟨State.reset,
        [(0, .vector (bits [1, 1, 0, 1, 0])), (1, .record ⟨.indeterminate, 0, 7, false⟩)]⟩ := by
  decide

/-- 95_test_vectors.md L3.3: EXTRACT of list:1000011 is list:0011. -/
theorem test_script_extract :
    extractData 4 (bits [1, 0, 0, 0, 0, 1, 1]) = bits [0, 0, 1, 1] := by decide

/-- A step from reset with a table word in the queue runs that operation. -/
theorem test_step_from_reset :
    nextState (step (State.reset.withFetchWord 24 0x010100)) =
      nextState (exec (.plan 1 true) State.reset) := by decide

/-! ## Reachable states that meet the invariant

`block 2 false` and `block 2 true` are the smallest blocks with a ROM miss. -/

theorem reset_ready : State.reset.Ready := by
  refine ⟨⟨⟨by decide, by decide, by decide, by decide, by decide, by decide, by decide,
    by decide, by decide⟩, ?_, ?_, ?_, ?_⟩, by decide⟩
  · intro h hh
    obtain rfl : [] = h := by simpa [State.reset] using hh
    exact ⟨by decide, by decide, by decide, by decide⟩
  · intro rom hr
    obtain rfl : [⟨false, 0⟩] = rom := by simpa [State.reset] using hr
    exact ⟨by decide, by decide, by decide⟩
  · intro ports hp
    simp [State.reset] at hp
  · intro ports hp
    simp [State.reset] at hp

/-- The matrix of d = 2, e = 1 (40_construction.md R88). -/
def matrix21 : ParityMatrix :=
  [bits [1, 0, 1, 0, 1, 0], bits [0, 1, 1, 0, 0, 0], bits [0, 0, 0, 1, 1, 0],
   bits [1, 1, 1, 1, 1, 1]]

/-- The matrix of d = 2, e = 0 (40_construction.md R88). -/
def matrix20 : ParityMatrix :=
  [bits [1, 0, 1, 0, 1], bits [0, 1, 1, 0, 0], bits [0, 0, 0, 1, 1]]

/-- The ROM of d = 2 (40_construction.md R93). -/
def rom2 : Rom :=
  [⟨false, 0⟩, ⟨true, 3⟩, ⟨true, 1⟩, ⟨false, 0⟩, ⟨true, 0⟩, ⟨true, 4⟩, ⟨true, 2⟩, ⟨false, 0⟩]

/-- The block of d = 2, e = 1, written from the spec's tables (R83, R88, R93). -/
def block21 : State :=
  { State.reset with
    dataLen := 2, extended := true, p := 3, n := 4, m := 6, k := 3, posW := 3
    matrix := some matrix21, rom := some rom2 }

/-- The block of d = 2, e = 0, written from the spec's tables (R83, R88, R93). -/
def block20 : State :=
  { State.reset with
    dataLen := 2, extended := false, p := 3, n := 3, m := 5, k := 3, posW := 3
    matrix := some matrix20, rom := some rom2 }

theorem block21_elaborated : nextState (elaborate 2 true State.reset) = some block21 := by decide

theorem block20_elaborated : nextState (elaborate 2 false State.reset) = some block20 := by decide

theorem block21_ready : block21.Ready := by
  refine ⟨⟨⟨by decide, by decide, by decide, by decide, by decide, by decide, by decide,
    by decide, by decide⟩, ?_, ?_, ?_, ?_⟩, by decide⟩
  · intro h hh
    obtain rfl : matrix21 = h := by simpa [block21] using hh
    exact ⟨by decide, by decide, by decide, by decide⟩
  · intro rom hr
    obtain rfl : rom2 = rom := by simpa [block21] using hr
    exact ⟨by decide, by decide, by decide⟩
  · intro ports hp
    simp [block21, State.reset] at hp
  · intro ports hp
    simp [block21, State.reset] at hp

theorem block20_ready : block20.Ready := by
  refine ⟨⟨⟨by decide, by decide, by decide, by decide, by decide, by decide, by decide,
    by decide, by decide⟩, ?_, ?_, ?_, ?_⟩, by decide⟩
  · intro h hh
    obtain rfl : matrix20 = h := by simpa [block20] using hh
    exact ⟨by decide, by decide, by decide, by decide⟩
  · intro rom hr
    obtain rfl : rom2 = rom := by simpa [block20] using hr
    exact ⟨by decide, by decide, by decide⟩
  · intro ports hp
    simp [block20, State.reset] at hp
  · intro ports hp
    simp [block20, State.reset] at hp

/-- A planned block on which nothing is built. -/
def planned : State := State.reset.withPlan 4 true (planSizes 4 true)

/-- list:10 encodes to list:111001 with the extended bit (41_encode.md R100: 11100, parity 1). -/
theorem block21_encodes :
    exec (.encode (bits [1, 0])) block21 =
      .next (block21.driveEnc ⟨bits [1, 0], bits [1, 1, 1, 0, 0, 1]⟩) := by rfl

/-! ## A witness for the hypotheses of each statement -/

theorem witness_ResetIsTheElaboratedEmptyBlock :
    State.reset.maxDataLen = none ∧ State.reset.pending = [] := by decide

theorem witness_StepKeepsTheInvariant :
    ∃ s t, s.Inv ∧ s.pending ≠ [] ∧ step s = .next t := by
  refine ⟨State.reset.withPending [0x01], State.reset, ?_, by decide, by rfl⟩
  obtain ⟨⟨hp, hm, hr, he, hd⟩, _⟩ := reset_ready
  exact ⟨⟨hp.1, hp.2, hp.3, hp.4, hp.5, hp.6, hp.7, hp.8, hp.9⟩,
    fun h hh => ⟨(hm h hh).1, (hm h hh).2, (hm h hh).3, (hm h hh).4⟩,
    fun rom hrom => ⟨(hr rom hrom).1, (hr rom hrom).2.1, (hr rom hrom).2.2⟩,
    fun ports hp => absurd hp (by simp [State.reset]),
    fun ports hp => absurd hp (by simp [State.reset])⟩

theorem witness_StepRunsThePendingOperation :
    decode (State.reset.withPending [0x02]).pending = .ok (.buildTable, []) ∧
      State.reset.pending = [] ∧
      ((State.reset.withPending [0x05]).pending ≠ [] ∧
        decode (State.reset.withPending [0x05]).pending = .error (.unknownSelector 0x05)) := by
  decide

theorem witness_FetchedTableWordIsRun :
    decodeTableWord 24 0x0D0403 = some (.encode (bits [1, 0, 1, 1])) ∧
      decodeTableWord 8 0x02 = some .buildTable := by decide

theorem witness_NoReachableStepFaults : block21.Inv := block21_ready.inv

theorem witness_EncodeOfDecodeGivesTheBytes :
    decode [0x00, 0x01, 0x04, 0x09] = .ok (.plan 4 true, [0x09]) := by decide

/-- At the cap itself and without a cap: PlanFindsTheLeastParityCount, PlanPositionWidth. -/
theorem witness_PlanFindsTheLeastParityCount :
    Config.capAdmits ({ State.reset with maxDataLen := some 4 } : State).maxDataLen 4 = true ∧
      Config.capAdmits State.reset.maxDataLen 247 = true := by decide

/-- M ≤ 1, 3, 4, 5, 8, 15 and 16 are each the M of a configuration. -/
theorem witness_PlanPositionWidth :
    Config.capAdmits State.reset.maxDataLen 11 = true ∧
    [(0, true), (1, false), (1, true), (2, false), (4, true), (11, false), (11, true)].map
      (fun c => (planSizes c.1 c.2).m) = [1, 3, 4, 5, 8, 15, 16] := by decide

/-- PlanSyndromeWidthIsSufficient, PlanFrame. -/
theorem witness_PlanSyndromeWidthIsSufficient :
    exec (.plan 4 true) block21 = .next (block21.withPlan 4 true (planSizes 4 true)) := by rfl

/-- The ends of the range r = 3, and d = 0. -/
theorem witness_PlanParityCountRanges :
    exec (.plan 2 true) State.reset = .next (State.reset.withPlan 2 true (planSizes 2 true)) ∧
    exec (.plan 4 true) State.reset = .next (State.reset.withPlan 4 true (planSizes 4 true)) ∧
    exec (.plan 0 true) State.reset = .next (State.reset.withPlan 0 true (planSizes 0 true)) ∧
    (2 ≤ 3 ∧ 2 ^ (3 - 1) + 1 ≤ 2 + 3 ∧ 2 + 3 + 1 ≤ 2 ^ 3) ∧
    (2 ≤ 3 ∧ 2 ^ (3 - 1) + 1 ≤ 4 + 3 ∧ 4 + 3 + 1 ≤ 2 ^ 3) := by
  refine ⟨by rfl, by rfl, by rfl, by decide, by decide⟩

theorem witness_PlanOverTheCapIsRefused :
    ({ State.reset with maxDataLen := some 4 } : State).maxDataLen = some 4 ∧ 4 < 5 ∧
      refusalOf (exec (.plan 5 true) { State.reset with maxDataLen := some 4 }) =
        some (.dataLenOverCap 5 4) := by decide

theorem witness_PlanFrame :
    exec (.plan 0 false) block21 = .next (block21.withPlan 0 false (planSizes 0 false)) := by rfl

/-- Both modes, with a column and a row in range: the statements about BUILD_MATRIX. -/
theorem witness_BuildMatrixFillsTheMatrix :
    block21.Inv ∧ block20.Inv ∧ block21.extended = true ∧ 0 < block21.k ∧
      block21.m - block21.extended.toNat < block21.m :=
  ⟨block21_ready.inv, block20_ready.inv, by decide, by decide, by decide⟩

theorem witness_BuildMatrixRunLengthPattern :
    block20.Inv ∧ 2 < block20.k ∧ 4 < block20.m - block20.extended.toNat :=
  ⟨block20_ready.inv, by decide, by decide⟩

theorem witness_ColumnSyndromesAreDistinct :
    block21.Inv ∧ block21.matrix = some matrix21 ∧ 4 < block21.m - block21.extended.toNat :=
  ⟨block21_ready.inv, by decide, by decide⟩

/-- Address 3 is no column's syndrome. -/
theorem witness_BuildTableStoresEveryColumn :
    block21.Inv ∧ block21.matrix = some matrix21 ∧ 4 < block21.m - block21.extended.toNat ∧
      3 < 2 ^ block21.k ∧
      ∀ j < block21.m - block21.extended.toNat, columnSyndrome matrix21 block21.k j ≠ 3 :=
  ⟨block21_ready.inv, by decide, by decide, by decide, by decide⟩

theorem witness_BuildTableClosedForm :
    block20.Inv ∧ block20.matrix.isSome = true := ⟨block20_ready.inv, by decide⟩

/-- A matrix with a zero column 1, and one whose column 2 repeats column 0. -/
theorem witness_BuildTableRaisesTheFirstFailingCheck :
    let zero : State := { block20 with matrix := some [bits [1, 0, 1, 1, 1]] }
    let dup : State := { block20 with matrix := some [bits [1, 0, 1], bits [0, 1, 0]] }
    (zero.matrix = some [bits [1, 0, 1, 1, 1]] ∧ 1 < zero.m - zero.extended.toNat ∧
      (∀ i < 1, columnSyndrome [bits [1, 0, 1, 1, 1]] zero.k i ≠ 0) ∧
      (∀ i < 1, ∀ i' < i, columnSyndrome [bits [1, 0, 1, 1, 1]] zero.k i' ≠
        columnSyndrome [bits [1, 0, 1, 1, 1]] zero.k i) ∧
      columnSyndrome [bits [1, 0, 1, 1, 1]] zero.k 1 = 0) ∧
    ((∀ i < 2, columnSyndrome [bits [1, 0, 1], bits [0, 1, 0]] dup.k i ≠ 0) ∧
      (∀ i < 2, ∀ i' < i, columnSyndrome [bits [1, 0, 1], bits [0, 1, 0]] dup.k i' ≠
        columnSyndrome [bits [1, 0, 1], bits [0, 1, 0]] dup.k i) ∧
      columnSyndrome [bits [1, 0, 1], bits [0, 1, 0]] dup.k 0 =
        columnSyndrome [bits [1, 0, 1], bits [0, 1, 0]] dup.k 2 ∧
      faultOf (exec .buildTable zero) = some (.configurationFault (.syndromeZero 1)) ∧
      faultOf (exec .buildTable dup) = some (.configurationFault (.syndromeDup 2 0 4))) := by
  decide

/-- An address that hits and one that misses. -/
theorem witness_RomAddressSpaceAndLayout :
    block21.Inv ∧ block21.rom = some rom2 ∧ 5 < 2 ^ block21.k ∧ (romRead rom2 5).hit = true :=
  ⟨block21_ready.inv, by decide, by decide, by decide⟩

/-- RomDoesNotDependOnExtended, ElaborationGivesAReadyBlock, ConstructionIsIdempotent. -/
theorem witness_ElaborationGivesAReadyBlock :
    Config.capAdmits block21.maxDataLen 4 = true ∧ Config.capAdmits planned.maxDataLen 4 = true ∧
      (nextState (elaborate 4 true block21)).isSome = true := by decide

theorem witness_NothingChangesAfterElaboration :
    block21.Ready ∧ (∀ d e, Instr.encode (bits [1, 0]) ≠ .plan d e) ∧
      ∃ t, exec (.encode (bits [1, 0])) block21 = .next t :=
  ⟨block21_ready, by simp, _, block21_encodes⟩

theorem witness_OperationsOutOfOrderAreRefused :
    planned.elaborated = false ∧ planned.matrix = none := by decide

theorem witness_WrongLengthIsRefusedAtThePort :
    block21.elaborated = true ∧
      (Instr.encode (bits [1])).wellFormed block21.shape = false ∧
      (Instr.decode (bits [1])).wellFormed block21.shape = false ∧
      (Instr.encode (bits [1, 0])).wellFormed block21.shape = true ∧
      (Instr.decode (bits [1, 1, 1, 0, 0, 1])).wellFormed block21.shape = true := by decide

theorem witness_PositionsAreParityOrData :
    block20.Inv ∧ 1 ≤ 5 ∧ 5 ≤ block20.m - block20.extended.toNat :=
  ⟨block20_ready.inv, by decide, by decide⟩

/-- EncodePlacesDataParityAndGlobalBits, RoundTripGivesNoError: both modes, every clause. -/
theorem witness_EncodePlacesDataParityAndGlobalBits :
    block21.Ready ∧ (bits [1, 0]).length = block21.dataLen ∧ 1 < block21.dataLen ∧
      2 < block21.k ∧ block21.extended = true ∧
      block20.Ready ∧ (bits [0, 1]).length = block20.dataLen :=
  ⟨block21_ready, by decide, by decide, by decide, by decide, block20_ready, by decide⟩

/-- EncodeClosedForms, EncodedWordPassesEveryCheck. -/
theorem witness_EncodeClosedForms :
    ∃ t ports, block21.Ready ∧ block21.matrix = some matrix21 ∧
      exec (.encode (bits [1, 0])) block21 = .next t ∧ t.enc = some ports ∧
      block21.extended = true :=
  ⟨_, _, block21_ready, by decide, block21_encodes, rfl, by decide⟩

theorem witness_EncodeIsLinearAndInjective :
    block21.Ready ∧ (bits [1, 0]).length = block21.dataLen ∧
      (bits [1, 1]).length = block21.dataLen :=
  ⟨block21_ready, by decide, by decide⟩

theorem witness_DecodeComputesSyndromeAndParity :
    block21.matrix = some matrix21 ∧ block21.rom = some rom2 ∧
      (bits [1, 1, 1, 0, 0, 1]).length = block21.m ∧ 2 < block21.k := by decide

/-- Every case of the classification is met on the block of d = 2, e = 1, in the order of the
statement's clauses: no flip, the global bit, two flips, one flip, three flips that miss. -/
theorem witness_DecodeClassifies :
    [[1, 1, 1, 0, 0, 1], [1, 1, 1, 0, 0, 0], [0, 0, 1, 0, 0, 1], [1, 1, 0, 0, 0, 1],
      [1, 1, 0, 1, 0, 0]].map (fun cw =>
        let ports := diagnose matrix21 rom2 3 6 3 true (bits cw)
        (bitsToNat ports.syndrome, ports.overallParity,
          (romRead rom2 (bitsToNat ports.syndrome)).hit)) =
      [(0, false, false), (0, true, false), (6, false, true), (6, true, true),
        (7, true, false)] := by decide

/-- Each of the four kinds is met. -/
theorem witness_DiagnosisFieldCombinations :
    block21.Ready ∧
      [[1, 1, 1, 0, 0, 1], [1, 1, 1, 0, 0, 0], [0, 0, 1, 0, 0, 1], [1, 1, 0, 1, 0, 0]].map
        (fun cw => (bits cw).length == block21.m) = [true, true, true, true] ∧
      [[1, 1, 1, 0, 0, 1], [1, 1, 1, 0, 0, 0], [0, 0, 1, 0, 0, 1], [1, 1, 0, 1, 0, 0]].map
        (fun cw => (diagnose matrix21 rom2 3 6 3 true (bits cw)).read.kind) =
        [.noError, .singleBitCorrectable, .doubleBitDetected, .indeterminate] :=
  ⟨block21_ready, by decide, by decide⟩

theorem witness_DecodeSyndromeClosedForm :
    block20.Ready ∧ (bits [1, 1, 0, 1, 0]).length = block20.m := ⟨block20_ready, by decide⟩

/-- The same matrix with another extended row; BUILD_TABLE and DECODE answer a state, a DECODE of
another length is refused. -/
theorem witness_ExtendedRowIsNeverRead :
    block21.matrix = some matrix21 ∧
      matrix21.set 3 (bits [0, 1, 0, 0, 0, 0]) ≠ matrix21 ∧
      (∀ i < block21.k, ∀ j, cell matrix21 i j =
        cell (matrix21.set 3 (bits [0, 1, 0, 0, 0, 0])) i j) ∧
      (∃ t, exec .buildTable block21 = .next t) ∧
      (∃ t, exec (.decode (bits [1, 1, 1, 0, 0, 1])) block21 = .next t) ∧
      exec (.decode []) block21 = .refused (.inputShape 0 6) := by
  refine ⟨by decide, by decide, fun i hi j => ?_, ⟨_, rfl⟩, ⟨_, rfl⟩, rfl⟩
  have hi' : i < 3 := hi
  unfold cell
  interval_cases i <;> rfl

/-- The fault clause of ExtendedRowIsNeverRead: a zero column faults whatever row 3 holds. -/
theorem witness_ExtendedRowIsNeverRead_fault :
    let zeroColumn : ParityMatrix := [bits [0], bits [0], bits [0], bits [1]]
    (∀ i < block21.k, ∀ j, cell zeroColumn i j = cell (zeroColumn.set 3 (bits [0])) i j) ∧
      faultOf (exec .buildTable { block21 with matrix := some zeroColumn }) =
        some (.configurationFault (.syndromeZero 0)) := by
  refine ⟨fun i hi j => ?_, by decide⟩
  have hi' : i < 3 := hi
  unfold cell
  interval_cases i <;> rfl

theorem witness_DiagnosisByErrorPattern :
    ∃ t ports, block21.Ready ∧ exec (.encode (bits [1, 0])) block21 = .next t ∧
      t.enc = some ports ∧ [2, 3, 5].Nodup ∧ ∀ j ∈ [2, 3, 5], j < block21.m :=
  ⟨_, _, block21_ready, block21_encodes, rfl, by decide, by decide⟩

/-- The first and the last index: the last one is the global bit. -/
theorem witness_SingleFlipIsLocated :
    block21.Ready ∧ (bits [1, 0]).length = block21.dataLen ∧ 0 < block21.m ∧ 5 < block21.m :=
  ⟨block21_ready, by decide, by decide, by decide⟩

theorem witness_DoubleFlipIsDetected :
    block21.Ready ∧ block21.extended = true ∧ (bits [1, 0]).length = block21.dataLen ∧
      0 < block21.m ∧ 5 < block21.m ∧ 0 ≠ 5 :=
  ⟨block21_ready, by decide, by decide, by decide, by decide, by decide⟩

/-- No flip, one flip and two flips with the extended bit, at the ends of the codeword. -/
theorem witness_HostContractIsMet :
    block21.Ready ∧ (bits [1, 0]).length = block21.dataLen ∧ block21.contractAllows [] ∧
      block21.contractAllows [5] ∧ block21.contractAllows [0, 5] ∧ block20.Ready ∧
      block20.contractAllows [4] := by
  refine ⟨block21_ready, by decide, ?_, ?_, ?_, block20_ready, ?_⟩ <;>
    exact ⟨by decide, by decide, by decide⟩

theorem witness_TwoFlipsWithoutExtendedBit :
    block20.Ready ∧ block20.extended = false ∧ (bits [1, 0]).length = block20.dataLen ∧
      2 < block20.m ∧ 3 < block20.m ∧ 2 ≠ 3 :=
  ⟨block20_ready, by decide, by decide, by decide, by decide, by decide⟩

/-- One flip, at the last index, and none. -/
theorem witness_CorrectionRecoversTheData :
    block21.Ready ∧ (bits [1, 0]).length = block21.dataLen ∧ [5].length ≤ 1 ∧
      (∀ j ∈ [5], j < block21.m) ∧ ([] : List Nat).length ≤ 1 :=
  ⟨block21_ready, by decide, by decide, by decide, by decide⟩

/-- CorrectAndExtractStatements: a record in range at the last index, and one outside. -/
theorem witness_CorrectAndExtractStatements :
    let vars : List (Var × Value) :=
      [(0, .vector (bits [1, 0, 1])), (1, .record ⟨.singleBitCorrectable, 2, 3, false⟩),
       (2, .record ⟨.singleBitCorrectable, 3, 1, false⟩), (3, .record ⟨.noError, 0, 0, false⟩)]
    readVector vars 0 = .ok (bits [1, 0, 1]) ∧
      readRecord vars 1 = .ok ⟨.singleBitCorrectable, 2, 3, false⟩ ∧
      2 < (bits [1, 0, 1]).length ∧
      readRecord vars 2 = .ok ⟨.singleBitCorrectable, 3, 1, false⟩ ∧
      (bits [1, 0, 1]).length ≤ 3 ∧
      readRecord vars 3 = .ok ⟨.noError, 0, 0, false⟩ := by decide

/-- RunTimeOperationsFrame and, with block21 for both states, SameInputGivesSameOutputs. -/
theorem witness_RunTimeOperationsFrame :
    (∃ t, exec (.encode (bits [1, 0])) block21 = .next t) ∧
      (∃ t, exec (.decode (bits [1, 1, 1, 0, 0, 1])) block21 = .next t) ∧
      block21.sameConstants (block21.driveEnc ⟨bits [1, 0], bits [1, 1, 1, 0, 0, 1]⟩) :=
  ⟨⟨_, rfl⟩, ⟨_, rfl⟩, by simp [State.sameConstants]⟩

theorem witness_ConstructionOperationsFrame :
    (∃ t, exec .buildMatrix planned = .next t) ∧ ∃ t, exec .buildTable block21 = .next t :=
  ⟨⟨_, rfl⟩, ⟨_, rfl⟩⟩

theorem witness_EncodeAndDecodeCommute :
    block21.elaborated = true ∧ (bits [1, 0]).length = block21.dataLen ∧
      (bits [1, 1, 1, 0, 0, 1]).length = block21.m := by decide

end Sys2Proof.Tests
end

section
/-!
PLAN and the implementation's cap (00_scope.md R5).
-/
namespace Sys2Proof.Machine

/-- PLAN is its cap check followed by the step that records the plan. -/
theorem exec_plan (d : Nat) (e : Bool) (s : State) :
    exec (.plan d e) s = whenBuildable s d (.next (s.withPlan d e (planSizes d e))) := rfl

/-- Settles O14: PLAN opens with the cap check, and a DATA_LEN over the cap ends there, whatever
would have followed. -/
theorem planOverTheCapIsRefused : Obligations.PlanOverTheCapIsRefused := by
  intro s d cap e hcap hover
  rw [exec_plan]
  exact whenBuildable_over _ hcap hover

end Sys2Proof.Machine
end

section
/-!
Where the bits of a codeword stand: the data positions are the values of `dataPos` in order, and
no other position below the global one is free (30_encoding.md R61, R62).
-/
namespace Sys2Proof.Machine

/-! ### The number of parity bits -/

/-- A number of parity bits that is enough, while no smaller one is, is PLAN's
(40_construction.md R80). -/
theorem eq_parityCount {d p : Nat} (enough : d + p + 1 ≤ 2 ^ p)
    (least : ∀ q < p, 2 ^ q < d + q + 1) : p = parityCount d := by
  rcases Nat.lt_trichotomy p (parityCount d) with hlt | heq | hgt
  · exact absurd enough (Nat.not_le.mpr (parityCount_least hlt))
  · exact heq
  · exact absurd (parityCount_enough d) (Nat.not_le.mpr (least _ hgt))

theorem parityCount_le_succ (d : Nat) : parityCount d ≤ parityCount (d + 1) := by
  by_contra h
  have few := parityCount_least (Nat.lt_of_not_le h)
  have enough := parityCount_enough (d + 1)
  omega

theorem parityCount_mono : Monotone parityCount := monotone_nat_of_le_succ parityCount_le_succ

/-- One more data bit needs at most one more parity bit; only the first one needs two
(40_construction.md R83). -/
theorem parityCount_succ_le {d : Nat} (hd : 0 < d) : parityCount (d + 1) ≤ parityCount d + 1 := by
  by_contra h
  have few := parityCount_least (Nat.lt_of_not_le h)
  have enough := parityCount_enough d
  rw [Nat.pow_succ] at few
  omega

/-! ### Data positions -/

/-- A data position lies strictly between two neighbouring powers of two. -/
theorem dataPos_between (t : Nat) :
    2 ^ (parityCount (t + 1) - 1) < dataPos t ∧ dataPos t < 2 ^ parityCount (t + 1) := by
  have enough := parityCount_enough (t + 1)
  have hpos : parityCount (t + 1) ≠ 0 := by
    intro h
    rw [h] at enough
    omega
  have few := parityCount_least (d := t + 1) (q := parityCount (t + 1) - 1) (by omega)
  unfold dataPos
  omega

theorem dataPos_ne_two_pow (t i : Nat) : dataPos t ≠ 2 ^ i := by
  intro h
  obtain ⟨hlow, hhigh⟩ := dataPos_between t
  rw [h, Nat.pow_lt_pow_iff_right (by decide)] at hlow hhigh
  omega

theorem isPow2_dataPos (t : Nat) : isPow2 (dataPos t) = false := by
  rw [Bool.eq_false_iff, ne_eq, isPow2_iff]
  rintro ⟨i, h⟩
  exact dataPos_ne_two_pow t i h

theorem dataPos_pos (t : Nat) : 0 < dataPos t := by
  unfold dataPos
  omega

/-- The first `d` data positions lie among the first d + P positions. -/
theorem dataPos_le_add_parityCount {t d : Nat} (h : t < d) : dataPos t ≤ d + parityCount d := by
  have := parityCount_mono (show t + 1 ≤ d from h)
  unfold dataPos
  omega

@[simp] theorem positions_length (m : Nat) : (positions m).length = m := by
  simp [positions]

theorem getElem_positions {m j : Nat} (h : j < (positions m).length) :
    (positions m)[j] = j + 1 := by
  simp [positions]

theorem take_positions {m j : Nat} (h : j ≤ m) : (positions m).take j = positions j := by
  unfold positions
  rw [← List.map_take, List.take_range, Nat.min_eq_left h]

theorem positions_add (m r : Nat) :
    positions (m + r) = positions m ++ (List.range r).map (m + · + 1) := by
  simp [positions, List.range_add, Function.comp_def]

theorem filter_positions (len : Nat) :
    ((positions len).filter fun q => !isPow2 q) = dataPositions len := rfl

theorem dataPositions_succ (len : Nat) :
    dataPositions (len + 1) =
      dataPositions len ++ if isPow2 (len + 1) then [] else [len + 1] := by
  unfold dataPositions
  rw [positions_add, List.filter_append]
  cases h : isPow2 (len + 1) <;> simp [h]

/-- Between the data positions of `d` bits and the next one stands at most a power of two, or, at
the beginning, 1 and 2. -/
theorem dataPositions_before_dataPos (d : Nat) :
    dataPositions (d + parityCount (d + 1)) = dataPositions (d + parityCount d) := by
  rcases Nat.eq_zero_or_pos d with rfl | hd
  · decide
  · have hle := parityCount_le_succ d
    have hge := parityCount_succ_le hd
    rcases Nat.eq_or_lt_of_le hle with heq | hlt
    · rw [heq]
    · have enough := parityCount_enough d
      have few := parityCount_least hlt
      have hpow : isPow2 (d + parityCount d + 1) = true :=
        (isPow2_iff _).mpr ⟨parityCount d, by omega⟩
      rw [show d + parityCount (d + 1) = d + parityCount d + 1 by omega, dataPositions_succ, hpow]
      simp

/-- The data positions of a codeword of d data bits are dataPos(0), …, dataPos(d − 1)
(30_encoding.md R62). -/
theorem dataPositions_eq_map_dataPos (d : Nat) :
    dataPositions (d + parityCount d) = (List.range d).map dataPos := by
  induction d with
  | zero => rfl
  | succ d ih =>
    have hlast : d + 1 + parityCount (d + 1) = d + parityCount (d + 1) + 1 := by omega
    have hdata : d + parityCount (d + 1) + 1 = dataPos d := hlast.symm
    rw [hlast, dataPositions_succ, dataPositions_before_dataPos, ih, hdata, isPow2_dataPos]
    simp [List.range_succ]

/-- Exactly `t` data positions stand before that of data bit `t`. -/
theorem dataPositions_pred_dataPos_length (t : Nat) :
    (dataPositions (dataPos t - 1)).length = t := by
  rw [show dataPos t - 1 = t + parityCount (t + 1) by unfold dataPos; omega,
    dataPositions_before_dataPos, dataPositions_eq_map_dataPos]
  simp

/-- Longer codewords begin with the same data positions. -/
theorem dataPositions_add (len r : Nat) :
    ∃ more, dataPositions (len + r) = dataPositions len ++ more := by
  unfold dataPositions
  rw [positions_add, List.filter_append]
  exact ⟨_, rfl⟩

end Sys2Proof.Machine
end

section
/-!
ENCODE, DECODE and BUILD_TABLE establish their parts of the invariant: each meets the closed form
of its rule on every block whose earlier parts meet theirs.
-/
namespace Sys2Proof.Machine

/-! ### Xor over a list -/

/-- Bit `i` of an accumulated xor of numbers is the xor of their bits `i`. -/
theorem testBit_foldl_xor {α : Type} (l : List α) (chosen : α → Bool) (number : α → Nat)
    (acc i : Nat) :
    (l.foldl (fun sum a => if chosen a then sum ^^^ number a else sum) acc).testBit i =
      (acc.testBit i ^^ xorAll (l.map fun a => chosen a && (number a).testBit i)) := by
  induction l generalizing acc with
  | nil => simp
  | cons a l ih =>
    rw [List.foldl_cons, ih]
    cases h : chosen a <;> simp [h]

/-- A xor over indices may leave out those at the end that count for nothing. -/
theorem xorAll_range_below {f g : Nat → Bool} {m len : Nat} (hle : len ≤ m)
    (hbelow : ∀ j < len, f j = g j) (habove : ∀ j, len ≤ j → j < m → f j = false) :
    xorAll ((List.range m).map f) = xorAll ((List.range len).map g) := by
  induction m with
  | zero => obtain rfl := Nat.le_zero.mp hle; rfl
  | succ m ih =>
    rcases Nat.eq_or_lt_of_le hle with rfl | hlt
    · exact congrArg xorAll (List.map_congr_left fun j hj => hbelow j (List.mem_range.mp hj))
    · have hm := Nat.le_of_lt_succ hlt
      rw [List.range_succ, List.map_append, xorAll_append,
        ih hm fun j hj hjm => habove j hj (Nat.lt_succ_of_lt hjm)]
      simp [habove m hm (Nat.lt_succ_self m)]

/-! ### Sizes -/

theorem State.PlanInv.k_eq_parityCount {s : State} (h : s.PlanInv) :
    s.k = parityCount s.dataLen :=
  h.k_eq_p.trans (eq_parityCount h.p_enough h.p_least)

/-- Every position below the global one is a K-bit number (40_construction.md R82). -/
theorem State.PlanInv.m_lt_two_pow {s : State} (h : s.PlanInv) :
    s.m - s.extended.toNat < 2 ^ s.k := by
  rw [h.m_without_global, h.k_eq_p]
  exact h.p_enough

/-- The parity positions stand below the global one (30_encoding.md R61). -/
theorem State.PlanInv.two_pow_le {s : State} (h : s.PlanInv) {i : Nat} (hi : i < s.k) :
    2 ^ i ≤ s.m - s.extended.toNat := by
  have hle : 2 ^ i ≤ 2 ^ (s.k - 1) := Nat.pow_le_pow_right (by decide) (by omega)
  have hk := h.k_eq_parityCount
  have few := parityCount_least (d := s.dataLen) (q := s.k - 1) (by omega)
  rw [h.m_without_global]
  omega

/-- The data positions stand below the global one (30_encoding.md R61). -/
theorem State.PlanInv.dataPos_le {s : State} (h : s.PlanInv) {t : Nat} (ht : t < s.dataLen) :
    dataPos t ≤ s.m - s.extended.toNat := by
  rw [h.m_without_global, h.k_eq_parityCount]
  exact dataPos_le_add_parityCount ht

/-- The data positions of all M positions begin with those of the data bits; what may follow is
the position of the global bit. -/
theorem State.PlanInv.dataPositions_m {s : State} (h : s.PlanInv) :
    ∃ more, dataPositions s.m = (List.range s.dataLen).map dataPos ++ more := by
  have hm : s.m = s.dataLen + parityCount s.dataLen + s.extended.toNat := by
    have := h.m_eq
    have := h.n_eq
    have := h.k_eq_p
    have := h.k_eq_parityCount
    omega
  rw [hm, ← dataPositions_eq_map_dataPos]
  exact dataPositions_add _ _

/-! ### ENCODE -/

/-- What the walk places at a position: 0 at a power of two, and else the data bit whose number is
the count of data positions before it (41_encode.md R100). -/
theorem elem_placeData {k : Nat} {ps : List Nat} (data : Bits) (acc : Nat) {j : Nat}
    (hj : j < ps.length) :
    elem (placeData k ps data acc).1 j =
      if isPow2 ps[j] then false
      else elem data ((ps.take j).filter fun q => !isPow2 q).length := by
  induction ps generalizing data acc j with
  | nil => simp at hj
  | cons pos ps ih =>
    unfold placeData
    cases j with
    | zero =>
      by_cases hp : isPow2 pos = true
      · simp [hp]
      · cases data <;> simp [hp]
    | succ j =>
      have hj' : j < ps.length := by simpa using hj
      by_cases hp : isPow2 pos = true
      · simp [hp, ih _ _ hj']
      · cases data <;> simp [hp, ih _ _ hj']

/-- Data bit `t` is placed at its position (41_encode.md R100, 30_encoding.md R62). -/
theorem elem_placeData_dataPos {k m t : Nat} (data : Bits) (acc : Nat) (h : dataPos t ≤ m) :
    elem (placeData k (positions m) data acc).1 (dataPos t - 1) = elem data t := by
  have hpos := dataPos_pos t
  rw [elem_placeData data acc (by simp; omega), getElem_positions,
    show dataPos t - 1 + 1 = dataPos t by omega, isPow2_dataPos, take_positions (by omega),
    filter_positions, dataPositions_pred_dataPos_length]
  rfl

/-- The walk meets every data bit at its position. -/
theorem State.PlanInv.zip_dataPositions {s : State} (h : s.PlanInv) {data : Bits}
    (hl : data.length = s.dataLen) :
    (dataPositions s.m).zip data =
      (List.range s.dataLen).map fun t => (dataPos t, elem data t) := by
  obtain ⟨more, hmore⟩ := h.dataPositions_m
  have hdata : (List.range s.dataLen).map (elem data) = data :=
    bits_ext (by simp [hl]) fun j hj => elem_map_range (by simpa using hj)
  calc (dataPositions s.m).zip data
      = ((List.range s.dataLen).map dataPos ++ more).zip (data ++ []) := by
        rw [hmore, List.append_nil]
    _ = ((List.range s.dataLen).map dataPos).zip data := by
        rw [List.zip_append (by simp [hl]), List.zip_nil_right, List.append_nil]
    _ = ((List.range s.dataLen).map dataPos).zip ((List.range s.dataLen).map (elem data)) := by
        rw [hdata]
    _ = (List.range s.dataLen).map fun t => (dataPos t, elem data t) := List.zip_map'

/-- Bit `i` of the accumulator is the xor of the data bits whose position has bit `i`; the mask to
K bits hides none of them (41_encode.md R101). -/
theorem State.PlanInv.testBit_acc {s : State} (h : s.PlanInv) {data : Bits}
    (hl : data.length = s.dataLen) {i : Nat} (hi : i < s.k) :
    (placeData s.k (positions s.m) data 0).2.testBit i =
      xorAll ((List.range s.dataLen).map fun t => elem data t && (dataPos t).testBit i) := by
  rw [placeData_acc, filter_positions, h.zip_dataPositions hl, testBit_foldl_xor]
  simp [Nat.testBit_mod_two_pow, hi, Function.comp_def]

/-- Parity placement and the global bit leave the data bits where the walk put them. -/
theorem State.PlanInv.elem_codewordOf_data {s : State} (h : s.PlanInv) (data : Bits) {t : Nat}
    (ht : t < s.dataLen) :
    elem (codewordOf s.k s.m s.extended data) (dataPos t - 1) = elem data t := by
  have hpos := dataPos_pos t
  have hle := h.dataPos_le ht
  have hglobal : s.extended = true → dataPos t - 1 ≠ s.m - 1 := by
    intro he
    rw [he, Bool.toNat_true] at hle
    omega
  have hparity : ∀ i < s.k, dataPos t - 1 ≠ 2 ^ i - 1 := by
    intro i _ heq
    have := Nat.two_pow_pos i
    exact dataPos_ne_two_pow t i (by omega)
  unfold codewordOf
  rw [elem_placeGlobal_other hglobal, elem_placeParity_other hparity,
    elem_placeData_dataPos data 0 (by omega)]

/-- A parity position receives its bit of the accumulator and keeps it (41_encode.md R102). -/
theorem State.PlanInv.elem_codewordOf_parity {s : State} (h : s.PlanInv) (data : Bits) {i : Nat}
    (hi : i < s.k) :
    elem (codewordOf s.k s.m s.extended data) (2 ^ i - 1) =
      (placeData s.k (positions s.m) data 0).2.testBit i := by
  have hpos := Nat.two_pow_pos i
  have hle := h.two_pow_le hi
  have hglobal : s.extended = true → 2 ^ i - 1 ≠ s.m - 1 := by
    intro he
    rw [he, Bool.toNat_true] at hle
    omega
  unfold codewordOf
  rw [elem_placeGlobal_other hglobal, elem_placeParity_parity hi]
  rw [placeData_length, positions_length]
  omega

/-- The global bit is the xor of the bits before it (41_encode.md R103). -/
theorem elem_codewordOf_global {k m : Nat} (data : Bits) (hm : 0 < m) :
    elem (codewordOf k m true data) (m - 1) =
      xorAll ((codewordOf k m true data).take (m - 1)) := by
  unfold codewordOf placeGlobal
  simp only [if_true, List.take_set_of_le (Nat.le_refl _)]
  rw [elem_set_eq]
  rw [placeParity_length, placeData_length, positions_length]
  omega

/-- ENCODE drives the codeword of its input (41_encode.md R104). -/
theorem State.PlanInv.encInv_codewordOf {s : State} (h : s.PlanInv) {data : Bits}
    (hl : data.length = s.dataLen) :
    s.EncInv ⟨data, codewordOf s.k s.m s.extended data⟩ where
  data_width := hl
  cw_width := codewordOf_length _ _ _ _
  dataBit := fun _ ht => h.elem_codewordOf_data data ht
  parityBit := fun _ hi => (h.elem_codewordOf_parity data hi).trans (h.testBit_acc hl hi)
  globalBit := by
    intro he
    have := h.m_eq
    have := h.extended_row he
    rw [he]
    exact elem_codewordOf_global data (by omega)

/-! ### DECODE -/

/-- The xor of the positions of the set bits, bit by bit. -/
theorem testBit_xorPositions (len : Nat) (cw : Bits) (i : Nat) :
    (xorPositions len cw).testBit i =
      xorAll ((List.range len).map fun j => elem cw j && (j + 1).testBit i) := by
  unfold xorPositions
  rw [testBit_foldl_xor, Nat.zero_testBit, Bool.false_xor]

theorem xorPositions_lt {len k : Nat} (h : len < 2 ^ k) (cw : Bits) :
    xorPositions len cw < 2 ^ k := by
  unfold xorPositions
  refine List.foldlRecOn (motive := (· < 2 ^ k)) _ _ (Nat.two_pow_pos k) fun sum hsum j hj => ?_
  have := List.mem_range.mp hj
  split
  · exact Nat.xor_lt_two_pow hsum (by omega)
  · exact hsum

theorem State.PlanInv.errorSum_lt {s : State} (h : s.PlanInv) (cw : Bits) :
    s.errorSum cw < 2 ^ s.k :=
  xorPositions_lt h.m_lt_two_pow cw

/-- The check of a non-extended row is that bit of the positions' xor: the row holds that bit of
every position, and 0 in the global column (42_decode.md R126). -/
theorem State.MatrixInv.rowCheck_eq {s : State} {h : ParityMatrix} (hm : s.MatrixInv h) {i : Nat}
    (hi : i < s.k) (cw : Bits) : rowCheck h s.m i cw = (s.errorSum cw).testBit i := by
  unfold rowCheck State.errorSum
  rw [testBit_xorPositions]
  refine xorAll_range_below (Nat.sub_le _ _) (fun j hj => ?_) fun j hj hjm => ?_
  · rw [hm.nonExtended i hi j (by omega), Bool.and_comm (elem cw j)]
    simp [hj]
  · rw [hm.nonExtended i hi j hjm]
    simp [Nat.not_lt.mpr hj]

/-- The syndrome of a received word is the reversed xor of the positions of its set bits
(42_decode.md R126). -/
theorem State.MatrixInv.syndrome_eq {s : State} {h : ParityMatrix} (hm : s.MatrixInv h)
    (cw : Bits) : syndrome h s.k s.m cw = bitrev s.k (s.errorSum cw) := by
  rw [← assemble_testBit]
  exact assemble_congr fun i hi => hm.rowCheck_eq hi cw

theorem bitrev_eq_zero_iff {k x : Nat} (h : x < 2 ^ k) : bitrev k x = 0 ↔ x = 0 :=
  ⟨fun h0 => bitrev_injective h (Nat.two_pow_pos k) (h0.trans (bitrev_zero k).symm),
    fun h0 => h0 ▸ bitrev_zero k⟩

/-- LOOKUP of a reversed position finds its column, and misses outside the codeword
(42_decode.md R123, R128). -/
theorem State.RomInv.lookup_bitrev {s : State} {rom : Rom} (hr : s.RomInv rom) {x : Nat}
    (hx : x < 2 ^ s.k) (hne : x ≠ 0) :
    lookup rom (bitrev s.k x) =
      if x ≤ s.m - s.extended.toNat then (.singleBitCorrectable, x - 1)
      else (.indeterminate, 0) := by
  unfold lookup
  rw [hr.entry _ (bitrev_lt _ _), State.romEntry, bitrev_bitrev hx]
  by_cases hle : x ≤ s.m - s.extended.toNat
  · simp [hle, Nat.one_le_iff_ne_zero.mpr hne, hitEntry]
  · simp [hle, sentinel]

/-- CLASSIFY on the block's ROM is the outcome in terms of the positions' xor
(42_decode.md R122 to R124, R128). -/
theorem State.RomInv.classify_bitrev {s : State} {rom : Rom} (hr : s.RomInv rom) {op : Bool}
    (hop : op = true → s.extended = true) {x : Nat} (hx : x < 2 ^ s.k) :
    classify rom s.m s.extended op (bitrev s.k x) = s.outcome op x := by
  unfold State.outcome
  by_cases h0 : x = 0
  · subst h0
    rw [bitrev_zero]
    cases he : s.extended <;> cases op <;> simp_all [classify]
  · have hne : bitrev s.k x ≠ 0 := mt (bitrev_eq_zero_iff hx).mp h0
    have hlookup := hr.lookup_bitrev hx h0
    cases he : s.extended with
    | false => simp [classify_plain, hne, h0, hlookup, he]
    | true =>
      cases op with
      | false => simp [classify_even hne, h0]
      | true => simp [classify_odd hne, h0, hlookup, he]

/-- DECODE drives the diagnosis of its input (42_decode.md R121, R126, R128). -/
theorem State.PlanInv.decInv_diagnose {s : State} (h : s.PlanInv) {mat : ParityMatrix} {rom : Rom}
    (hm : s.MatrixInv mat) (hr : s.RomInv rom) {cw : Bits} (hl : cw.length = s.m) :
    s.DecInv (diagnose mat rom s.k s.m s.posW s.extended cw) := by
  have hop : overallParity s.extended cw = true → s.extended = true := by
    unfold overallParity
    simp +contextual
  have hfound :
      classify rom s.m s.extended (overallParity s.extended cw) (syndrome mat s.k s.m cw) =
        s.outcome (overallParity s.extended cw) (s.errorSum cw) := by
    rw [hm.syndrome_eq, hr.classify_bitrev hop (h.errorSum_lt cw)]
  constructor
  case cw_width => exact hl
  case syndrome => rw [diagnose_syndrome, hm.syndrome_eq, diagnose_cw]
  case parity => rfl
  case kind => rw [diagnose_kind, hfound]; rfl
  case pos => rw [diagnose_pos, hfound]; rfl

/-! ### BUILD_TABLE -/

/-- BUILD_TABLE passes every check on the configuration's matrix and fills the configuration's ROM
(40_construction.md R91, R92). -/
theorem State.PlanInv.buildTable_ok {s : State} (h : s.PlanInv) {mat : ParityMatrix}
    (hm : s.MatrixInv mat) :
    ∃ rom, buildTable mat s.k s.m s.extended = .ok rom ∧ s.RomInv rom := by
  have hlt := h.m_lt_two_pow
  have hsyn : ∀ j ∈ List.range (s.m - s.extended.toNat),
      columnSyndrome mat s.k j = bitrev s.k (j + 1) :=
    fun j hj => columnSyndrome_of_matrixInv hm (List.mem_range.mp hj)
  have hzero : ∀ j ∈ List.range (s.m - s.extended.toNat), columnSyndrome mat s.k j ≠ 0 := by
    intro j hj
    have := List.mem_range.mp hj
    rw [hsyn j hj, ne_eq, bitrev_eq_zero_iff (by omega)]
    omega
  have hdistinct : (List.range (s.m - s.extended.toNat)).Pairwise fun j j' =>
      columnSyndrome mat s.k j ≠ columnSyndrome mat s.k j' := by
    refine List.nodup_range.imp_of_mem fun {j j'} hj hj' hne heq => hne ?_
    have := List.mem_range.mp hj
    have := List.mem_range.mp hj'
    rw [hsyn j hj, hsyn j' hj'] at heq
    have := bitrev_injective (by omega) (by omega) heq
    omega
  obtain ⟨rom, hok, hsize, hhit, hmiss⟩ := tableColumns_ok (List.range (s.m - s.extended.toNat))
    (List.replicate (2 ^ s.k) sentinel) (by simp) hzero
    (fun j _ => by rw [romRead_replicate]; rfl) hdistinct
  refine ⟨rom, hok, hsize, fun a ha => ?_⟩
  unfold State.romEntry
  split
  case isTrue hq =>
    have hj : bitrev s.k a - 1 ∈ List.range (s.m - s.extended.toNat) :=
      List.mem_range.mpr (by omega)
    have haddr : columnSyndrome mat s.k (bitrev s.k a - 1) = a := by
      rw [hsyn _ hj, Nat.sub_add_cancel hq.1, bitrev_bitrev ha]
    rw [← hhit _ hj, haddr]
  case isFalse hq =>
    rw [hmiss a, romRead_replicate]
    intro j hj heq
    have := List.mem_range.mp hj
    rw [hsyn j hj] at heq
    rw [← heq, bitrev_bitrev (by omega)] at hq
    omega

end Sys2Proof.Machine
end

section
/-!
Every operation, and so every step, keeps the invariant (10_state.md R20, R32).
-/
namespace Sys2Proof.Machine

/-! ### The invariant's parts read the configuration and the sizes alone -/

/-- `t` has the configuration and the sizes of `s`, whatever is built, driven or pending. -/
structure State.SameSizes (s t : State) : Prop where
  dataLen : t.dataLen = s.dataLen
  extended : t.extended = s.extended
  maxDataLen : t.maxDataLen = s.maxDataLen
  p : t.p = s.p
  n : t.n = s.n
  m : t.m = s.m
  k : t.k = s.k
  posW : t.posW = s.posW

theorem sameSizes_withMatrix (s : State) (mat : ParityMatrix) : s.SameSizes (s.withMatrix mat) := by
  constructor <;> rfl

theorem sameSizes_withRom (s : State) (rom : Rom) : s.SameSizes (s.withRom rom) := by
  constructor <;> rfl

theorem sameSizes_driveEnc (s : State) (ports : EncPorts) : s.SameSizes (s.driveEnc ports) := by
  constructor <;> rfl

theorem sameSizes_driveDec (s : State) (ports : DecPorts) : s.SameSizes (s.driveDec ports) := by
  constructor <;> rfl

theorem sameSizes_withPending (s : State) (bytes : List Byte) :
    s.SameSizes (s.withPending bytes) := by
  constructor <;> rfl

section
variable {s t : State} (c : s.SameSizes t)
include c

theorem State.SameSizes.matrixInv {mat : ParityMatrix} (h : s.MatrixInv mat) : t.MatrixInv mat := by
  obtain ⟨rows, columns, nonExtended, extendedRow⟩ := h
  constructor <;> simpa only [c.n, c.m, c.k, c.extended]

theorem State.SameSizes.romInv {rom : Rom} (h : s.RomInv rom) : t.RomInv rom := by
  obtain ⟨size, entry⟩ := h
  constructor <;> simpa only [State.romEntry, c.m, c.k, c.extended]

theorem State.SameSizes.encInv {ports : EncPorts} (h : s.EncInv ports) : t.EncInv ports := by
  obtain ⟨dataWidth, cwWidth, dataBit, parityBit, globalBit⟩ := h
  constructor <;> simpa only [c.dataLen, c.m, c.k, c.extended]

theorem State.SameSizes.decInv {ports : DecPorts} (h : s.DecInv ports) : t.DecInv ports := by
  obtain ⟨cwWidth, syndrome, parity, kind, pos⟩ := h
  constructor <;>
    simpa only [State.outcome, State.errorSum, c.m, c.k, c.posW, c.extended]

/-- A state of the same sizes meets the invariant when what it holds meets the parts of `s`. -/
theorem State.SameSizes.inv (plan : s.PlanInv)
    (matrix : ∀ mat, t.matrix = some mat → s.MatrixInv mat)
    (rom : ∀ rom, t.rom = some rom → t.matrix.isSome = true ∧ s.RomInv rom)
    (enc : ∀ ports, t.enc = some ports → t.elaborated = true ∧ s.EncInv ports)
    (dec : ∀ ports, t.dec = some ports → t.elaborated = true ∧ s.DecInv ports) : t.Inv where
  plan := plan.congr c.dataLen c.extended c.maxDataLen c.p c.n c.m c.k c.posW
  matrix := fun mat h => c.matrixInv (matrix mat h)
  rom := fun table h => (rom table h).imp_right c.romInv
  enc := fun ports h => (enc ports h).imp_right c.encInv
  dec := fun ports h => (dec ports h).imp_right c.decInv

end

/-! ### What each operation does to the invariant -/

/-- PLAN establishes the invariant whatever stood there before: nothing is built or driven. -/
theorem inv_of_exec_plan {s t : State} {d : Nat} {e : Bool} (h : exec (.plan d e) s = .next t) :
    t.Inv := by
  obtain ⟨hcap, rfl⟩ := execPlan_eq_next.mp h
  exact ⟨planInv_withPlan e hcap, by simp, by simp, by simp, by simp⟩

theorem elaborated_withMatrix {s : State} (mat : ParityMatrix) (h : s.elaborated = true) :
    (s.withMatrix mat).elaborated = true := by
  obtain ⟨_, rom, _, hr⟩ := elaborated_iff.mp h
  exact elaborated_iff.mpr ⟨mat, rom, rfl, hr⟩

theorem elaborated_withRom {s : State} (rom : Rom) (h : s.elaborated = true) :
    (s.withRom rom).elaborated = true := by
  obtain ⟨mat, _, hm, _⟩ := elaborated_iff.mp h
  exact elaborated_iff.mpr ⟨mat, rom, hm, rfl⟩

theorem State.Inv.withMatrix {s : State} {mat : ParityMatrix} (h : s.Inv)
    (hm : s.MatrixInv mat) : (s.withMatrix mat).Inv := by
  refine (sameSizes_withMatrix s mat).inv h.plan ?matrix ?rom ?enc ?dec
  case matrix =>
    rintro _ ⟨⟩
    exact hm
  case rom => exact fun rom hr => ⟨rfl, (h.rom rom hr).2⟩
  case enc => exact fun ports hp => (h.enc ports hp).imp_left (elaborated_withMatrix mat)
  case dec => exact fun ports hp => (h.dec ports hp).imp_left (elaborated_withMatrix mat)

theorem State.Inv.withRom {s : State} {rom : Rom} (h : s.Inv) (hm : s.matrix.isSome = true)
    (hr : s.RomInv rom) : (s.withRom rom).Inv := by
  refine (sameSizes_withRom s rom).inv h.plan h.matrix ?rom ?enc ?dec
  case rom =>
    rintro _ ⟨⟩
    exact ⟨hm, hr⟩
  case enc => exact fun ports hp => (h.enc ports hp).imp_left (elaborated_withRom rom)
  case dec => exact fun ports hp => (h.dec ports hp).imp_left (elaborated_withRom rom)

theorem State.Inv.driveEnc {s : State} {ports : EncPorts} (h : s.Inv) (hd : s.elaborated = true)
    (he : s.EncInv ports) : (s.driveEnc ports).Inv := by
  refine (sameSizes_driveEnc s ports).inv h.plan h.matrix h.rom ?_ h.dec
  rintro _ ⟨⟩
  exact ⟨hd, he⟩

theorem State.Inv.driveDec {s : State} {ports : DecPorts} (h : s.Inv) (hd : s.elaborated = true)
    (hp : s.DecInv ports) : (s.driveDec ports).Inv := by
  refine (sameSizes_driveDec s ports).inv h.plan h.matrix h.rom h.enc ?_
  rintro _ ⟨⟩
  exact ⟨hd, hp⟩

theorem State.Inv.withPending {s : State} (h : s.Inv) (bytes : List Byte) :
    (s.withPending bytes).Inv :=
  (sameSizes_withPending s bytes).inv h.plan h.matrix h.rom h.enc h.dec

/-- Every operation keeps the invariant: it establishes its own part, and the others stay. -/
theorem exec_keeps_inv {s t : State} {i : Instr} (h : s.Inv) (hex : exec i s = .next t) :
    t.Inv := by
  cases i with
  | plan d e => exact inv_of_exec_plan hex
  | buildMatrix =>
    obtain rfl := Host.Outcome.next.inj hex
    exact h.withMatrix (matrixInv_buildMatrix h.plan)
  | buildTable =>
    obtain ⟨mat, rom, hm, hb, rfl⟩ := execBuildTable_eq_next.mp hex
    obtain ⟨rom', hb', hr⟩ := h.plan.buildTable_ok (h.matrix mat hm)
    obtain rfl := Except.ok.inj (hb.symm.trans hb')
    exact h.withRom (by rw [hm]; rfl) hr
  | encode data =>
    obtain ⟨hd, hl, rfl⟩ := execEncode_eq_next.mp hex
    exact h.driveEnc hd (h.plan.encInv_codewordOf hl)
  | decode cw =>
    obtain ⟨mat, rom, hm, hr, hl, rfl⟩ := execDecode_eq_next.mp hex
    exact h.driveDec (elaborated_iff.mpr ⟨mat, rom, hm, hr⟩)
      (h.plan.decInv_diagnose (h.matrix mat hm) (h.rom rom hr).2 hl)

/-- Settles O3: an idle step changes nothing, and every other one takes an operation off the queue
and runs it. -/
theorem stepKeepsTheInvariant : Obligations.StepKeepsTheInvariant := by
  intro s t h hstep
  obtain ⟨_, rfl⟩ | ⟨i, rest, _, hex⟩ := step_eq_next hstep
  · exact h
  · exact exec_keeps_inv (h.withPending rest) hex

/-- Elaboration establishes the invariant from any state (40_construction.md R94). -/
theorem inv_of_elaborate {s t : State} {d : Nat} {e : Bool} (h : elaborate d e s = .next t) :
    t.Inv := by
  obtain ⟨planned, hplan, h⟩ := andThen_eq_next.mp h
  obtain ⟨built, hmatrix, htable⟩ := andThen_eq_next.mp h
  exact exec_keeps_inv (exec_keeps_inv (inv_of_exec_plan hplan) hmatrix) htable

/-- Settles O1: the reset block is what elaborating d = 0, e = 0 on it gives. -/
theorem resetMeetsTheInvariant : Obligations.ResetMeetsTheInvariant :=
  inv_of_elaborate (s := State.reset) (d := 0) (e := false) rfl

end Sys2Proof.Machine
end

section
/-!
PLAN's width of the position output (10_state.md R24).
-/
namespace Sys2Proof.Machine

/-- `clog2` is the least width that is enough (00_scope.md R9). -/
theorem clog2_le_iff {x w : Nat} : clog2 x ≤ w ↔ x ≤ 2 ^ w := by
  constructor
  · exact fun h => (clog2_enough x).trans (Nat.pow_le_pow_right (by decide) h)
  · intro h
    by_contra hlt
    exact absurd h (Nat.not_le.mpr (clog2_least (Nat.lt_of_not_le hlt)))

/-- The width of the numbers above `2 ^ w` and up to `2 ^ (w + 1)`. -/
theorem clog2_eq_succ {x w : Nat} (hlow : 2 ^ w < x) (hhigh : x ≤ 2 ^ (w + 1)) :
    clog2 x = w + 1 := by
  have hle := clog2_le_iff.mpr hhigh
  have hgt := mt clog2_le_iff.mp (Nat.not_le.mpr hlow)
  omega

/-- A width holds every index below `m` exactly when `m` is at most its power of two. -/
theorem indices_fit_iff {m w : Nat} : (∀ j < m, j < 2 ^ w) ↔ m ≤ 2 ^ w := by
  constructor
  · intro h
    by_contra hlt
    exact absurd (h _ (Nat.lt_of_not_le hlt)) (Nat.lt_irrefl _)
  · exact fun h j hj => Nat.lt_of_lt_of_le hj h

/-- Settles O12: POS_W is written as max(1, clog2 M), and what it is least for follows from what
`clog2` is least for. -/
theorem planPositionWidth : Obligations.PlanPositionWidth := by
  intro s d e hcap
  refine ⟨s.withPlan d e (planSizes d e), execPlan_eq_next.mpr ⟨hcap, rfl⟩, ?_⟩
  have hposW : (s.withPlan d e (planSizes d e)).posW =
      max 1 (clog2 (s.withPlan d e (planSizes d e)).m) := rfl
  generalize s.withPlan d e (planSizes d e) = t at hposW
  simp only [indices_fit_iff, hposW]
  refine ⟨trivial, Nat.le_max_left _ _, clog2_le_iff.mp (Nat.le_max_right _ _),
    fun w hw hfit => Nat.max_le.mpr ⟨hw, clog2_le_iff.mpr hfit⟩, fun h => ?_, fun h => ?_,
    fun h => ?_, fun h => ?_⟩
  · exact Nat.max_eq_left (clog2_le_iff.mpr (by omega))
  · rw [clog2_eq_succ (w := 1) (by omega) (by omega)]
    rfl
  · rw [clog2_eq_succ (w := 2) (by omega) (by omega)]
    rfl
  · rw [clog2_eq_succ (w := 3) (by omega) (by omega)]
    rfl

end Sys2Proof.Machine
end

section
/-!
The constants of a ready block stay (10_state.md R20, 00_scope.md R5): the invariant leaves one
matrix and one ROM to a configuration, so building them again changes nothing.
-/
namespace Sys2Proof.Machine

/-- Two matrices of one shape with the same cells are equal. -/
theorem matrix_ext {n m : Nat} {mat mat' : ParityMatrix} (hrows : mat.length = n)
    (hrows' : mat'.length = n) (hcolumns : ∀ row ∈ mat, row.length = m)
    (hcolumns' : ∀ row ∈ mat', row.length = m)
    (hcell : ∀ i < n, ∀ j < m, cell mat i j = cell mat' i j) : mat = mat' := by
  refine List.ext_getElem (hrows.trans hrows'.symm) fun i hi hi' => ?_
  have hlen := hcolumns _ (List.getElem_mem hi)
  refine bits_ext (hlen.trans (hcolumns' _ (List.getElem_mem hi')).symm) fun j hj => ?_
  have h := hcell i (hrows ▸ hi) j (hlen ▸ hj)
  unfold cell at h
  rwa [List.getD_eq_getElem _ _ hi, List.getD_eq_getElem _ _ hi'] at h

/-- A configuration has one parity-check matrix (40_construction.md R85). -/
theorem State.PlanInv.matrix_unique {s : State} (h : s.PlanInv) {mat mat' : ParityMatrix}
    (hm : s.MatrixInv mat) (hm' : s.MatrixInv mat') : mat = mat' := by
  refine matrix_ext hm.rows hm'.rows hm.columns hm'.columns fun i hi j hj => ?_
  by_cases hik : i < s.k
  · rw [hm.nonExtended i hik j hj, hm'.nonExtended i hik j hj]
  · have hn := h.n_eq
    have hk := h.k_eq_p
    cases he : s.extended with
    | false =>
      rw [he, Bool.toNat_false] at hn
      omega
    | true =>
      rw [he, Bool.toNat_true] at hn
      obtain rfl : i = s.n - 1 := by omega
      rw [hm.extendedRow he j hj, hm'.extendedRow he j hj]

/-- A configuration has one ROM (40_construction.md R91). -/
theorem State.RomInv.unique {s : State} {rom rom' : Rom} (hr : s.RomInv rom)
    (hr' : s.RomInv rom') : rom = rom' := by
  refine List.ext_getElem (hr.size.trans hr'.size.symm) fun a ha ha' => ?_
  have hlt : a < 2 ^ s.k := hr.size ▸ ha
  have h := (hr.entry a hlt).trans (hr'.entry a hlt).symm
  unfold romRead at h
  rwa [List.getD_eq_getElem _ _ ha, List.getD_eq_getElem _ _ ha'] at h

theorem withMatrix_self {s : State} {mat : ParityMatrix} (h : s.matrix = some mat) :
    s.withMatrix mat = s := by
  unfold State.withMatrix
  rw [← h]

theorem withRom_self {s : State} {rom : Rom} (h : s.rom = some rom) : s.withRom rom = s := by
  unfold State.withRom
  rw [← h]

/-- BUILD_MATRIX on a block that has its matrix builds the same one (log 8). -/
theorem State.Inv.exec_buildMatrix_self {s : State} (h : s.Inv) {mat : ParityMatrix}
    (hm : s.matrix = some mat) : exec .buildMatrix s = .next s := by
  have hsame := h.plan.matrix_unique (matrixInv_buildMatrix h.plan) (h.matrix mat hm)
  change execBuildMatrix s = .next s
  rw [execBuildMatrix_eq, hsame, withMatrix_self hm]

/-- BUILD_TABLE on a block that has its ROM fills the same one (log 8). -/
theorem State.Inv.exec_buildTable_self {s : State} (h : s.Inv) {mat : ParityMatrix} {rom : Rom}
    (hm : s.matrix = some mat) (hr : s.rom = some rom) : exec .buildTable s = .next s := by
  obtain ⟨rom', hok, hr'⟩ := h.plan.buildTable_ok (h.matrix mat hm)
  obtain rfl := hr'.unique (h.rom rom hr).2
  exact execBuildTable_eq_next.mpr ⟨mat, rom', hm, hok, (withRom_self hr).symm⟩

theorem State.sameConstants_refl (s : State) : s.sameConstants s := by
  simp [State.sameConstants]

theorem sameConstants_driveEnc (s : State) (ports : EncPorts) :
    s.sameConstants (s.driveEnc ports) := by
  simp [State.sameConstants]

theorem sameConstants_driveDec (s : State) (ports : DecPorts) :
    s.sameConstants (s.driveDec ports) := by
  simp [State.sameConstants]

/-- Settles O26: the two builds give the constants that are there, and the run-time operations
drive ports only. -/
theorem nothingChangesAfterElaboration : Obligations.NothingChangesAfterElaboration := by
  have rebuild : ∀ s : State, s.Ready →
      exec .buildMatrix s = .next s ∧ exec .buildTable s = .next s := by
    rintro s ⟨hinv, hdone⟩
    obtain ⟨mat, rom, hm, hr⟩ := elaborated_iff.mp hdone
    exact ⟨hinv.exec_buildMatrix_self hm, hinv.exec_buildTable_self hm hr⟩
  refine ⟨rebuild, fun s t i hready hplan hex => ?_⟩
  obtain ⟨hmatrix, htable⟩ := rebuild s hready
  cases i with
  | plan d e => exact absurd rfl (hplan d e)
  | buildMatrix =>
    obtain rfl := Host.Outcome.next.inj (hmatrix.symm.trans hex)
    exact s.sameConstants_refl
  | buildTable =>
    obtain rfl := Host.Outcome.next.inj (htable.symm.trans hex)
    exact s.sameConstants_refl
  | encode data =>
    obtain ⟨_, _, rfl⟩ := execEncode_eq_next.mp hex
    exact sameConstants_driveEnc s _
  | decode cw =>
    obtain ⟨_, _, _, _, _, rfl⟩ := execDecode_eq_next.mp hex
    exact sameConstants_driveDec s _

end Sys2Proof.Machine
end

section
/-!
What the operations do not depend on: the extended row (10_state.md R27, 40_construction.md R87)
and the history of the ports (10_state.md R30).
-/
namespace Sys2Proof.Machine

/-! ### The extended row -/

/-- `r` with the matrix `mat` in the state it answers. -/
def carryMatrix (mat : ParityMatrix) (r : Result) : Result :=
  andThen r fun t => .next (t.withMatrix mat)

theorem carryMatrix_eq_next {mat : ParityMatrix} {r : Result} {t' : State} :
    carryMatrix mat r = .next t' ↔ ∃ t, r = .next t ∧ t.withMatrix mat = t' := by
  unfold carryMatrix
  simp only [andThen_eq_next, Host.Outcome.next.injEq]

theorem carryMatrix_eq_fault {mat : ParityMatrix} {r : Result} {why : Fault} :
    carryMatrix mat r = .fault why ↔ r = .fault why := by
  cases r <;> simp [carryMatrix]

theorem carryMatrix_eq_refused {mat : ParityMatrix} {r : Result} {why : Refusal} :
    carryMatrix mat r = .refused why ↔ r = .refused why := by
  cases r <;> simp [carryMatrix]

theorem carryMatrix_whenShape (mat : ParityMatrix) (v : Bits) (width : Nat) (r : Result) :
    carryMatrix mat (whenShape v width r) = whenShape v width (carryMatrix mat r) := by
  unfold whenShape
  split <;> rfl

section
variable {s : State} {mat mat' : ParityMatrix} (hm : s.matrix = some mat)
include hm

theorem whenElaborated_withMatrix {k k' : ParityMatrix → Rom → Result}
    (hk : ∀ rom, k' mat' rom = carryMatrix mat' (k mat rom)) :
    whenElaborated (s.withMatrix mat') k' = carryMatrix mat' (whenElaborated s k) := by
  unfold whenElaborated
  simp only [hm, withMatrix_matrix, withMatrix_rom]
  cases s.rom with
  | none => rfl
  | some rom => exact hk rom

/-- ENCODE reads no cell of the matrix, and leaves it. -/
theorem exec_encode_withMatrix (data : Bits) :
    exec (.encode data) (s.withMatrix mat') = carryMatrix mat' (exec (.encode data) s) := by
  refine whenElaborated_withMatrix hm fun rom => ?_
  rw [carryMatrix_whenShape]
  rfl

/-- DECODE reads the non-extended rows only, and leaves the matrix. -/
theorem exec_decode_withMatrix (cw : Bits)
    (hc : ∀ row < s.k, ∀ j, cell mat row j = cell mat' row j) :
    exec (.decode cw) (s.withMatrix mat') = carryMatrix mat' (exec (.decode cw) s) := by
  refine whenElaborated_withMatrix hm fun rom => ?_
  rw [carryMatrix_whenShape, diagnose_congr rom s.m s.posW s.extended cw hc]
  rfl

/-- BUILD_TABLE reads the non-extended rows only, and leaves the matrix. -/
theorem exec_buildTable_withMatrix (hc : ∀ row < s.k, ∀ j, cell mat row j = cell mat' row j) :
    exec .buildTable (s.withMatrix mat') = carryMatrix mat' (exec .buildTable s) := by
  change execBuildTable _ = carryMatrix mat' (execBuildTable s)
  unfold execBuildTable whenMatrixBuilt
  simp only [hm, withMatrix_matrix, withMatrix_k, withMatrix_m, withMatrix_extended,
    ← buildTable_congr s.m s.extended hc]
  cases buildTable mat s.k s.m s.extended <;> rfl

end

/-- Two results alike but for the matrix: the same fault, the same refusal, or two states that
agree on every other field, with one matrix or each with its own of the two. -/
def EndsAlike (mat mat' : ParityMatrix) (r r' : Result) : Prop :=
  (∀ why, r = .fault why ↔ r' = .fault why) ∧
  (∀ why, r = .refused why ↔ r' = .refused why) ∧
  ((∃ t, r = .next t) ↔ ∃ t', r' = .next t') ∧
  ∀ t t', r = .next t → r' = .next t' →
    t' = { t with matrix := t'.matrix } ∧
    (t'.matrix = t.matrix ∨ t.matrix = some mat ∧ t'.matrix = some mat')

theorem endsAlike_self (mat mat' : ParityMatrix) (r : Result) : EndsAlike mat mat' r r := by
  refine ⟨fun _ => Iff.rfl, fun _ => Iff.rfl, Iff.rfl, fun t t' ht ht' => ?_⟩
  obtain rfl := Host.Outcome.next.inj (ht.symm.trans ht')
  exact ⟨rfl, .inl rfl⟩

theorem endsAlike_carryMatrix {mat : ParityMatrix} (mat' : ParityMatrix) {r : Result}
    (hkeep : ∀ t, r = .next t → t.matrix = some mat) :
    EndsAlike mat mat' r (carryMatrix mat' r) := by
  refine ⟨fun _ => carryMatrix_eq_fault.symm, fun _ => carryMatrix_eq_refused.symm,
    ?_, fun t t' ht ht' => ?_⟩
  · simp [carryMatrix_eq_next]
  · obtain ⟨u, hu, rfl⟩ := carryMatrix_eq_next.mp ht'
    obtain rfl := Host.Outcome.next.inj (ht.symm.trans hu)
    exact ⟨rfl, .inr ⟨hkeep t ht, rfl⟩⟩

/-- Settles O40: PLAN and BUILD_MATRIX replace the matrix unread; the other three carry it along
and read no more of it than its non-extended rows. -/
theorem extendedRowIsNeverRead : Obligations.ExtendedRowIsNeverRead := by
  intro s mat mat' i hm hc
  change EndsAlike mat mat' (exec i s) (exec i (s.withMatrix mat'))
  cases i with
  | plan d e => exact endsAlike_self ..
  | buildMatrix => exact endsAlike_self ..
  | buildTable =>
    rw [exec_buildTable_withMatrix hm hc]
    refine endsAlike_carryMatrix mat' fun t ht => ?_
    obtain ⟨_, _, _, _, rfl⟩ := execBuildTable_eq_next.mp ht
    exact hm
  | encode data =>
    rw [exec_encode_withMatrix hm]
    refine endsAlike_carryMatrix mat' fun t ht => ?_
    obtain ⟨_, _, rfl⟩ := execEncode_eq_next.mp ht
    exact hm
  | decode cw =>
    rw [exec_decode_withMatrix hm cw hc]
    refine endsAlike_carryMatrix mat' fun t ht => ?_
    obtain ⟨_, _, _, _, _, rfl⟩ := execDecode_eq_next.mp ht
    exact hm

/-! ### The history of the ports -/

/-- Settles O51: what ENCODE and DECODE drive is a function of the input and the constants, and
driving it again replaces it by itself. -/
theorem sameInputGivesSameOutputs : Obligations.SameInputGivesSameOutputs := by
  rintro s s' t v ⟨hdata, hext, _, _, _, hm, hk, hposW, hmat, hrom⟩
  refine ⟨fun hex => ?encode, fun hex => ?decode⟩
  case encode =>
    obtain ⟨hdone, hl, rfl⟩ := execEncode_eq_next.mp hex
    have hdone' : s'.elaborated = true := by
      rwa [State.elaborated, hmat, hrom]
    refine ⟨⟨_, execEncode_eq_next.mpr ⟨hdone', hl.trans hdata.symm, rfl⟩, ?_⟩,
      execEncode_eq_next.mpr ⟨hdone, hl, rfl⟩⟩
    rw [driveEnc_enc, driveEnc_enc, hk, hm, hext]
  case decode =>
    obtain ⟨mat, rom, hmat₁, hrom₁, hl, rfl⟩ := execDecode_eq_next.mp hex
    refine ⟨⟨_, execDecode_eq_next.mpr
        ⟨mat, rom, hmat.trans hmat₁, hrom.trans hrom₁, hl.trans hm.symm, rfl⟩, ?_⟩,
      execDecode_eq_next.mpr ⟨mat, rom, hmat₁, hrom₁, hl, rfl⟩⟩
    rw [driveDec_dec, driveDec_dec, hk, hm, hposW, hext]

end Sys2Proof.Machine
end

section
/-!
The ROM's addresses and the layout of its entries (20_memory.md R46, 30_encoding.md R66).
-/
namespace Sys2Proof.Machine

/-! ### The layout of an entry -/

@[simp] theorem RomEntry.word_length (posW : Nat) (entry : RomEntry) :
    (entry.word posW).length = 1 + posW := by
  simp [RomEntry.word, Nat.add_comm]

/-- `hit` stands above the elements of `col`. -/
@[simp] theorem RomEntry.elem_word_hit (posW : Nat) (entry : RomEntry) :
    elem (entry.word posW) posW = entry.hit := by
  simp [RomEntry.word, elem, List.getD_eq_getElem?_getD]

/-- `col` is read back from the elements below `hit` where it fits their width. -/
theorem RomEntry.bitsToNat_word_col {posW : Nat} {entry : RomEntry} (h : entry.col < 2 ^ posW) :
    bitsToNat ((entry.word posW).take posW) = entry.col := by
  rw [RomEntry.word, List.take_left' (natToBits_length ..), bitsToNat_natToBits_of_lt h]

/-! ### The entries of a configuration -/

/-- An entry of the configuration's ROM is a hit on a non-global column or the sentinel. -/
theorem State.romEntry_cases (s : State) (a : Nat) :
    (∃ j < s.m - s.extended.toNat, s.romEntry a = hitEntry j) ∨ s.romEntry a = sentinel := by
  unfold State.romEntry
  split
  case isTrue h => exact .inl ⟨_, by omega, rfl⟩
  case isFalse => exact .inr rfl

/-- No column has the syndrome 0, so no entry of address 0 hits. -/
theorem State.romEntry_zero (s : State) : s.romEntry 0 = sentinel := by
  simp [State.romEntry]

/-- POS_W elements hold the column of every entry (10_state.md R24). -/
theorem State.PlanInv.romEntry_col_lt {s : State} (h : s.PlanInv) (a : Nat) :
    (s.romEntry a).col < 2 ^ s.posW := by
  obtain ⟨j, hj, hentry⟩ | hentry := s.romEntry_cases a
  · rw [hentry]
    exact (hj.trans_le (Nat.sub_le ..)).trans_le h.posW_enough
  · rw [hentry]
    exact Nat.two_pow_pos s.posW

/-- Settles O22: every address reads the configuration's entry there, which is a hit on a
non-global column or the sentinel, and whose column fits its POS_W elements. -/
theorem romAddressSpaceAndLayout : Obligations.RomAddressSpaceAndLayout := by
  intro s rom hinv hrom
  obtain ⟨-, size, entry⟩ := hinv.rom rom hrom
  refine ⟨size, (entry 0 (Nat.two_pow_pos s.k)).trans s.romEntry_zero, fun a ha => ?_⟩
  rw [entry a ha]
  refine ⟨RomEntry.word_length .., RomEntry.elem_word_hit ..,
    RomEntry.bitsToNat_word_col (hinv.plan.romEntry_col_lt a), ?_⟩
  obtain ⟨j, hj, hentry⟩ | hentry := s.romEntry_cases a
  · simp [hentry, hitEntry, hj]
  · simp [hentry, sentinel]

end Sys2Proof.Machine
end

section
/-!
ENCODE and DECODE on one block: each drives its own side and reads the constants alone
(20_memory.md R48, R49).
-/
namespace Sys2Proof.Machine

theorem exec_encode_of_elaborated {s : State} {data : Bits} (hdone : s.elaborated = true)
    (hl : data.length = s.dataLen) :
    exec (.encode data) s = .next (s.driveEnc ⟨data, codewordOf s.k s.m s.extended data⟩) :=
  execEncode_eq_next.mpr ⟨hdone, hl, rfl⟩

theorem exec_decode_of_built {s : State} {mat : ParityMatrix} {rom : Rom} {cw : Bits}
    (hm : s.matrix = some mat) (hr : s.rom = some rom) (hl : cw.length = s.m) :
    exec (.decode cw) s =
      .next (s.driveDec (diagnose mat rom s.k s.m s.posW s.extended cw)) :=
  execDecode_eq_next.mpr ⟨mat, rom, hm, hr, hl, rfl⟩

/-- Settles O50: driving one side leaves what the other operation reads, and the two sides are
separate fields of the state. -/
theorem encodeAndDecodeCommute : Obligations.EncodeAndDecodeCommute := by
  intro s data cw hdone hdata hcw
  obtain ⟨mat, rom, hm, hr⟩ := elaborated_iff.mp hdone
  have hencode := exec_encode_of_elaborated hdone hdata
  have hdecode := exec_decode_of_built hm hr hcw
  refine ⟨_, andThen_eq_next.mpr ⟨_, hencode, exec_decode_of_built hm hr hcw⟩, ?_⟩
  rw [driveEnc_driveDec_comm]
  exact andThen_eq_next.mpr ⟨_, hdecode, exec_encode_of_elaborated hdone hdata⟩

end Sys2Proof.Machine
end

section
/-!
The decoder and the encoder of the byte form are inverse to each other (log 1), and what a table
word fetches is its operation's encoding (log 14).
-/
namespace Sys2Proof

/-! ### The bytes of an operation decode to it -/

/-- The operands of PLAN. -/
theorem decodePlan_encodeOperands (d : Nat) (e : Bool) (rest : List Byte) :
    decodePlan (encodeOperands (.plan d e) ++ rest) = .ok (.plan d e, rest) := by
  cases e <;> simp [encodeOperands, decodePlan, decodeNumber_encodeNumber]

/-- Decoding the bytes of an operation gives the operation and leaves what follows. -/
theorem decode_encode (i : Instr) (rest : List Byte) :
    decode (encode i ++ rest) = .ok (i, rest) := by
  cases i with
  | plan d e => exact decodePlan_encodeOperands d e rest
  | buildMatrix => rfl
  | buildTable => rfl
  | encode data =>
    simp [encode, selector, encodeOperands, decode, decodeVector_encodeVector]
  | decode cw =>
    simp [encode, selector, encodeOperands, decode, decodeVector_encodeVector]

/-- Settles O7: the selector byte names the operation, and each operand's bytes decode to it. -/
theorem decodeOfEncodeGivesTheOperation : Obligations.DecodeOfEncodeGivesTheOperation :=
  decode_encode

/-! ### Bytes that decode to an operation are its encoding -/

/-- Any fuel from the number on gives the same groups. -/
theorem encodeNumberFrom_eq {fuel x : Nat} (h : x ≤ fuel) :
    encodeNumberFrom fuel x = encodeNumber x := by
  suffices ∀ fuel', x ≤ fuel' → encodeNumberFrom fuel x = encodeNumberFrom fuel' x from
    this x (Nat.le_refl x)
  induction fuel generalizing x with
  | zero =>
    obtain rfl := Nat.le_zero.mp h
    exact fun fuel' _ => (encodeNumberFrom_small (by decide)).symm
  | succ fuel ih =>
    intro fuel' h'
    by_cases hx : x < 128
    · rw [encodeNumberFrom_small hx, encodeNumberFrom_small hx]
    · obtain ⟨fuel', rfl⟩ : ∃ f, fuel' = f + 1 := ⟨fuel' - 1, by omega⟩
      rw [encodeNumberFrom, encodeNumberFrom, if_neg hx, if_neg hx,
        ih (by omega) fuel' (by omega)]

theorem encodeNumber_small {x : Nat} (h : x < 128) : encodeNumber x = [BitVec.ofNat 8 x] :=
  encodeNumberFrom_small h

/-- A number of more than one group. -/
theorem encodeNumber_large {x : Nat} (h : 128 ≤ x) :
    encodeNumber x = BitVec.ofNat 8 (128 + x % 128) :: encodeNumber (x / 128) := by
  have hsucc : encodeNumber x = encodeNumberFrom (x + 1) x := (encodeNumberFrom_eq (by omega)).symm
  rw [hsucc, encodeNumberFrom, if_neg (by omega), encodeNumberFrom_eq (by omega)]

/-- A number has one spelling: a last group of zero is refused. -/
theorem bytes_of_decodeNumber {bytes rest : List Byte} {x : Nat}
    (h : decodeNumber bytes = .ok (x, rest)) : bytes = encodeNumber x ++ rest := by
  induction bytes generalizing x with
  | nil => cases h
  | cons b bytes ih =>
    unfold decodeNumber at h
    split at h
    case isTrue hlast =>
      cases h
      simp [encodeNumber_small hlast]
    case isFalse hmore =>
      split at h
      case h_1 => cases h
      case h_2 high after hhigh =>
        split at h
        case isTrue => cases h
        case isFalse hne =>
          cases h
          have hb := b.isLt
          have hmod : 128 + (b.toNat - 128 + 128 * high) % 128 = b.toNat := by omega
          have hdiv : (b.toNat - 128 + 128 * high) / 128 = high := by omega
          rw [encodeNumber_large (by omega), hmod, hdiv, ih hhigh, BitVec.ofNat_toNat]
          simp

/-- A vector has one spelling: that of its width, and of a value that fits it. -/
theorem bytes_of_decodeVector {bytes rest : List Byte} {v : Bits}
    (h : decodeVector bytes = .ok (v, rest)) : bytes = encodeVector v ++ rest := by
  unfold decodeVector at h
  split at h
  case h_1 => cases h
  case h_2 width afterWidth hwidth =>
    split at h
    case h_1 => cases h
    case h_2 value after hvalue =>
      split at h
      case isTrue hfit =>
        cases h
        rw [bytes_of_decodeNumber hwidth, bytes_of_decodeNumber hvalue, encodeVector,
          Machine.natToBits_length, Machine.bitsToNat_natToBits_of_lt hfit, List.append_assoc]
      case isFalse => cases h

theorem bytes_of_decodePlan {bytes rest : List Byte} {i : Instr}
    (h : decodePlan bytes = .ok (i, rest)) : 0 :: bytes = encode i ++ rest := by
  cases bytes with
  | nil => cases h
  | cons b bytes =>
    simp only [decodePlan] at h
    split at h
    case isTrue => cases h
    case isFalse hbit =>
      split at h
      case h_1 => cases h
      case h_2 d after hd =>
        cases h
        have hb : BitVec.ofNat 8 (b.toNat == 1).toNat = b := by
          obtain h0 | h1 : b.toNat = 0 ∨ b.toNat = 1 := by omega
          · exact BitVec.eq_of_toNat_eq (by simp [h0])
          · exact BitVec.eq_of_toNat_eq (by simp [h1])
        simp only [encode, selector, encodeOperands, hb, bytes_of_decodeNumber hd, List.cons_append]

/-- Bytes that decode to an operation are its encoding and what is left. -/
theorem bytes_of_decode {bytes rest : List Byte} {i : Instr}
    (h : decode bytes = .ok (i, rest)) : bytes = encode i ++ rest := by
  cases bytes with
  | nil => cases h
  | cons b operands =>
    have selector_eq {n : Nat} (hn : b.toNat = n) : b = BitVec.ofNat 8 n := by
      rw [← hn, BitVec.ofNat_toNat, BitVec.setWidth_eq]
    simp only [decode] at h
    split at h
    case h_1 hb =>
      rw [selector_eq hb]
      exact bytes_of_decodePlan h
    case h_2 hb =>
      cases h
      rw [selector_eq hb]
      rfl
    case h_3 hb =>
      cases h
      rw [selector_eq hb]
      rfl
    case h_4 hb =>
      split at h
      case h_1 => cases h
      case h_2 data after hdata =>
        cases h
        rw [selector_eq hb, bytes_of_decodeVector hdata]
        rfl
    case h_5 hb =>
      split at h
      case h_1 => cases h
      case h_2 cw after hcw =>
        cases h
        rw [selector_eq hb, bytes_of_decodeVector hcw]
        rfl
    case h_6 => cases h

/-- Settles O8: the selector, a number and a vector have one spelling each. -/
theorem encodeOfDecodeGivesTheBytes : Obligations.EncodeOfDecodeGivesTheBytes :=
  fun _ _ _ => bytes_of_decode

/-- Settles O9: the five words are the encodings of their operations; the two refused ones stop at
the selector and at the value. -/
theorem sampleWordsDecode : Obligations.SampleWordsDecode :=
  ⟨decode_encode (.plan 4 true) [], decode_encode .buildMatrix [], decode_encode .buildTable [],
    decode_encode (.encode [true, false, true, true]) [],
    decode_encode (.decode [false, true, false, false, false, true, true]) [], rfl, rfl⟩

/-! ### Table words -/

/-- The bytes a table word's operation takes are those of the operation. -/
theorem fetchBytes_eq_encode {nbits w : Nat} {i : Instr} (h : decodeTableWord nbits w = some i) :
    fetchBytes nbits w = encode i := by
  unfold decodeTableWord at h
  split at h
  case h_1 => cases h
  case h_2 found rest hd =>
    cases h
    simp only [fetchBytes, hd]
    simp [bytes_of_decode hd]

end Sys2Proof
end

section
/-!
A step runs what the host has lined up; a prepared state has one operation lined up (log 14).
-/
namespace Sys2Proof.Machine

/-- Settles O5: what the table word fetches is the operation's encoding, which decodes to it and
leaves nothing. -/
theorem fetchedTableWordIsRun : Obligations.FetchedTableWordIsRun := by
  intro s nbits w i h
  have hd : decode (s.withFetchWord nbits w).pending = .ok (i, []) := by
    rw [withFetchWord_pending, fetchBytes_eq_encode h, ← List.append_nil (encode i), decode_encode]
  exact step_decoded hd

/-- Settles O4: the three cases of the queue. -/
theorem stepRunsThePendingOperation : Obligations.StepRunsThePendingOperation :=
  fun _ => ⟨fun _ _ => step_decoded, step_idle, fun _ => step_undecodable⟩

end Sys2Proof.Machine
end

section
/-!
Positions as parity or data, and the inverse of `dataPos` (30_encoding.md R61, R62).
-/
namespace Sys2Proof.Machine

/-- Below the global position the powers of two are the parity positions (30_encoding.md R61). -/
theorem State.PlanInv.isPow2_iff_parity {s : State} (h : s.PlanInv) {q : Nat}
    (hq : q ≤ s.m - s.extended.toNat) : isPow2 q = true ↔ ∃ i < s.k, q = 2 ^ i := by
  rw [isPow2_iff]
  constructor
  · rintro ⟨i, rfl⟩
    exact ⟨i, (Nat.pow_lt_pow_iff_right (by decide)).mp (hq.trans_lt h.m_lt_two_pow), rfl⟩
  · rintro ⟨i, -, hi⟩
    exact ⟨i, hi⟩

/-- The data positions below the global one are those of the data bits (30_encoding.md R62). -/
theorem State.PlanInv.dataPositions_eq {s : State} (h : s.PlanInv) :
    dataPositions (s.m - s.extended.toNat) = (List.range s.dataLen).map dataPos := by
  rw [h.m_without_global, h.k_eq_parityCount, dataPositions_eq_map_dataPos]

/-- Settles O29: M − e = d + K is PLAN's codeword length without the global bit, and it is below
2^K. -/
theorem positionsAreParityOrData : Obligations.PositionsAreParityOrData :=
  fun _ hinv => ⟨hinv.plan.dataPositions_eq, fun _ _ => hinv.plan.isPow2_iff_parity⟩

theorem dataPos_lt_succ (t : Nat) : dataPos t < dataPos (t + 1) := by
  have := parityCount_le_succ (t + 1)
  unfold dataPos
  omega

/-- The number of parity bits for `t + 1` data bits is one more than the exponent of the power of
two below the position of bit `t`. -/
theorem log2_dataPos (t : Nat) : Nat.log2 (dataPos t) + 1 = parityCount (t + 1) := by
  obtain ⟨hlow, hhigh⟩ := dataPos_between t
  have hne : dataPos t ≠ 0 := (dataPos_pos t).ne'
  have hcount : parityCount (t + 1) ≠ 0 := by
    intro h0
    rw [h0] at hhigh
    omega
  have hlog : Nat.log2 (dataPos t) = parityCount (t + 1) - 1 := by
    rw [Nat.log2_eq_iff hne, Nat.sub_add_cancel (Nat.one_le_iff_ne_zero.mpr hcount)]
    exact ⟨hlow.le, hhigh⟩
  omega

/-- Settles O30: dataPos(t) = t + 1 + P(t + 1), and its logarithm is P(t + 1) − 1. -/
theorem dataPositionInverse : Obligations.DataPositionInverse := by
  intro t
  refine ⟨isPow2_dataPos t, dataPos_lt_succ t, ?_⟩
  have := log2_dataPos t
  have : dataPos t = t + 1 + parityCount (t + 1) := rfl
  omega

end Sys2Proof.Machine
end

section
/-!
What a host reads from DECODE on a ready block: the outcome of R128 in numbers
(30_encoding.md R64, R65, 42_decode.md R126, R128).
-/
namespace Sys2Proof.Machine

/-! ### The kind's code -/

@[simp] theorem Kind.ofCode_code (kind : Kind) : Kind.ofCode kind.code = kind := by
  cases kind <;> rfl

/-- Settles O37: the table of codes, read in both directions. -/
theorem kindCodes : Obligations.KindCodes :=
  ⟨rfl, rfl, rfl, rfl, Kind.ofCode_code, by decide⟩

/-! ### The outcome, case by case -/

section
variable (s : State)

theorem State.outcome_clean : s.outcome false 0 = (.noError, 0) := rfl

theorem State.outcome_global : s.outcome true 0 = (.singleBitCorrectable, s.m - 1) := rfl

variable {s} {op : Bool} {x : Nat} (hx : x ≠ 0)
include hx

theorem State.outcome_even (he : s.extended = true) :
    s.outcome false x = (.doubleBitDetected, 0) := by
  simp [State.outcome, hx, he]

theorem State.outcome_located (hop : op = s.extended) (hle : x ≤ s.m - s.extended.toNat) :
    s.outcome op x = (.singleBitCorrectable, x - 1) := by
  simp [State.outcome, hx, hop, hle]

theorem State.outcome_miss (hop : op = s.extended) (hgt : s.m - s.extended.toNat < x) :
    s.outcome op x = (.indeterminate, 0) := by
  simp [State.outcome, hx, hop, Nat.not_le.mpr hgt]

end

/-- Every position reported is an index of the codeword, or 0. -/
theorem State.PlanInv.outcome_pos_lt {s : State} (h : s.PlanInv) (op : Bool) (x : Nat) :
    (s.outcome op x).2 < 2 ^ s.posW := by
  have hpos := Nat.two_pow_pos s.posW
  have hm := h.posW_enough
  unfold State.outcome
  split_ifs <;> dsimp only <;> omega

/-- What the host reads from the outputs of a ready block. -/
theorem State.PlanInv.read_of_decInv {s : State} (h : s.PlanInv) {ports : DecPorts}
    (hd : s.DecInv ports) :
    ports.read =
      { kind := (s.outcome ports.overallParity (s.errorSum ports.cw)).1
        pos := (s.outcome ports.overallParity (s.errorSum ports.cw)).2
        syn := bitrev s.k (s.errorSum ports.cw)
        op := ports.overallParity } := by
  unfold DecPorts.read
  rw [hd.kind, hd.pos, hd.syndrome, Kind.ofCode_code, bitsToNat_natToBits_of_lt (bitrev_lt _ _),
    bitsToNat_natToBits_of_lt (h.outcome_pos_lt _ _)]

/-- DECODE of any word of M bits on a ready block completes and drives its diagnosis. -/
theorem State.Ready.exec_decode {s : State} (h : s.Ready) {cw : Bits} (hl : cw.length = s.m) :
    ∃ ports, exec (.decode cw) s = .next (s.driveDec ports) ∧ ports.cw = cw ∧ s.DecInv ports := by
  obtain ⟨mat, rom, hm, hr⟩ := elaborated_iff.mp h.done
  exact ⟨_, exec_decode_of_built hm hr hl, rfl,
    h.inv.plan.decInv_diagnose (h.inv.matrix mat hm) (h.inv.rom rom hr).2 hl⟩

/-- The overall parity is 0 without the extended bit (42_decode.md R121). -/
theorem State.DecInv.extended_of_overallParity {s : State} {ports : DecPorts} (h : s.DecInv ports)
    (hop : ports.overallParity = true) : s.extended = true := by
  rw [h.parity, Bool.and_eq_true] at hop
  exact hop.1

/-- The rows of the table of field combinations (30_encoding.md R65), with the column `syn` in
terms of the positions' xor `x`. -/
theorem State.PlanInv.outcome_combinations {s : State} (h : s.PlanInv) {op : Bool}
    (hop : op = true → s.extended = true) (x : Nat) :
    (s.outcome op x = (.noError, 0) ∧ x = 0 ∧ op = false) ∨
    (∃ j < s.m, s.outcome op x = (.singleBitCorrectable, j) ∧ op = s.extended ∧
      (x = 0 → s.extended = true ∧ j = s.m - 1)) ∨
    (s.outcome op x = (.doubleBitDetected, 0) ∧ x ≠ 0 ∧ op = false ∧ s.extended = true) ∨
    (s.outcome op x = (.indeterminate, 0) ∧ x ≠ 0 ∧ op = s.extended) := by
  by_cases hx : x = 0
  · subst hx
    cases op with
    | false => exact .inl ⟨s.outcome_clean, rfl, rfl⟩
    | true =>
      have he := hop rfl
      have := h.m_eq
      have := h.extended_row he
      exact .inr (.inl ⟨s.m - 1, by omega, s.outcome_global, he.symm, fun _ => ⟨he, rfl⟩⟩)
  · by_cases heq : op = s.extended
    · by_cases hle : x ≤ s.m - s.extended.toNat
      · exact .inr (.inl
          ⟨x - 1, by omega, s.outcome_located hx heq hle, heq, fun h0 => absurd h0 hx⟩)
      · exact .inr (.inr (.inr ⟨s.outcome_miss hx heq (Nat.lt_of_not_le hle), hx, heq⟩))
    · have hop' : op = false := by
        cases op with
        | false => rfl
        | true => exact absurd (hop rfl).symm heq
      subst hop'
      have he : s.extended = true := by simpa using Ne.symm heq
      exact .inr (.inr (.inl ⟨s.outcome_even hx he, hx, rfl, he⟩))

/-- Settles O38: the host reads the outcome of the positions' xor, whose combinations are the
table's; the syndrome is 0 exactly when that xor is. -/
theorem diagnosisFieldCombinations : Obligations.DiagnosisFieldCombinations := by
  intro s cw hready hl
  have hplan := hready.inv.plan
  obtain ⟨ports, hex, hcw, hd⟩ := hready.exec_decode hl
  have hkind : Kind.ofCode ports.kind = ports.read.kind := rfl
  have hsyn := bitrev_eq_zero_iff (hplan.errorSum_lt ports.cw)
  refine ⟨ports, hex, by rw [hd.pos, natToBits_length], by rw [hd.syndrome, natToBits_length], ?_⟩
  rw [hkind, hplan.read_of_decInv hd]
  dsimp only
  rw [ne_eq, hsyn]
  obtain ⟨ho, hx, hop⟩ | ⟨j, hj, ho, hop, hx⟩ | ⟨ho, hx, hop, he⟩ | ⟨ho, hx, hop⟩ :=
    hplan.outcome_combinations hd.extended_of_overallParity (s.errorSum ports.cw)
  · rw [ho]
    simp [hx, hop]
  · rw [ho]
    simpa [hj, hop] using hx
  · rw [ho]
    simp [hx, hop, he]
  · rw [ho]
    simp [hx, hop]

end Sys2Proof.Machine
end

section
/-!
A codeword and its flips: every codeword passes every check (41_encode.md R106), and each flip adds
its position to the positions' xor and its bit to the parity (42_decode.md R127).
-/
namespace Sys2Proof.Machine

/-! ### Xor over a list -/

/-- A xor over a list is taken apart by any split of the list. -/
theorem xorAll_map_filter {α : Type} (l : List α) (p f : α → Bool) :
    xorAll (l.map f) =
      (xorAll ((l.filter p).map f) ^^ xorAll ((l.filter fun a => !p a).map f)) := by
  induction l with
  | nil => rfl
  | cons a l ih => cases h : p a <;> simp [h, ih, Bool.xor_left_comm]

theorem xorAll_map_eq_false {α : Type} {l : List α} {f : α → Bool} (h : ∀ a ∈ l, f a = false) :
    xorAll (l.map f) = false := by
  induction l with
  | nil => rfl
  | cons a l ih =>
    rw [List.map_cons, xorAll_cons, h a List.mem_cons_self,
      ih fun b hb => h b (List.mem_cons_of_mem a hb), Bool.xor_false]

/-- A xor in which one entry alone can be 1 is that entry. -/
theorem xorAll_map_eq_single {α : Type} {l : List α} {f : α → Bool} {a : α} (hl : l.Nodup)
    (ha : a ∈ l) (h : ∀ b ∈ l, b ≠ a → f b = false) : xorAll (l.map f) = f a := by
  induction l with
  | nil => simp at ha
  | cons b l ih =>
    obtain ⟨hb, hl⟩ := List.nodup_cons.mp hl
    rw [List.map_cons, xorAll_cons]
    rcases List.mem_cons.mp ha with rfl | ha
    · rw [xorAll_map_eq_false fun c hc => h c (List.mem_cons_of_mem _ hc) fun heq => hb (heq ▸ hc),
        Bool.xor_false]
    · rw [h b List.mem_cons_self fun heq => hb (heq ▸ ha), Bool.false_xor,
        ih hl ha fun c hc => h c (List.mem_cons_of_mem _ hc)]

/-! ### Positions -/

theorem mem_positions {m q : Nat} : q ∈ positions m ↔ 1 ≤ q ∧ q ≤ m := by
  simp only [positions, List.mem_map, List.mem_range]
  constructor
  · rintro ⟨j, hj, rfl⟩
    omega
  · intro h
    exact ⟨q - 1, by omega, by omega⟩

theorem nodup_positions (m : Nat) : (positions m).Nodup :=
  List.nodup_range.map fun _ _ => Nat.succ.inj

/-- The positions' xor, bit by bit, over the positions themselves. -/
theorem testBit_xorPositions_positions (len : Nat) (cw : Bits) (i : Nat) :
    (xorPositions len cw).testBit i =
      xorAll ((positions len).map fun q => elem cw (q - 1) && q.testBit i) := by
  rw [testBit_xorPositions, positions, List.map_map]
  rfl

/-! ### A codeword passes every check -/

/-- Among the parity positions, 2^i alone has bit `i`. -/
theorem State.PlanInv.xorAll_parity {s : State} (h : s.PlanInv) (cw : Bits) {i : Nat}
    (hi : i < s.k) :
    xorAll (((positions (s.m - s.extended.toNat)).filter isPow2).map fun q =>
      elem cw (q - 1) && q.testBit i) = elem cw (2 ^ i - 1) := by
  have hmem : 2 ^ i ∈ (positions (s.m - s.extended.toNat)).filter isPow2 :=
    List.mem_filter.mpr ⟨mem_positions.mpr ⟨Nat.one_le_two_pow, h.two_pow_le hi⟩,
      (isPow2_iff _).mpr ⟨i, rfl⟩⟩
  rw [xorAll_map_eq_single ((nodup_positions _).filter _) hmem]
  · simp
  · intro q hq hne
    obtain ⟨j, rfl⟩ := (isPow2_iff q).mp (List.mem_filter.mp hq).2
    rw [Nat.testBit_two_pow_of_ne (mt (congrArg (2 ^ ·)) hne), Bool.and_false]

/-- The positions' xor of a codeword is 0: parity bit `i` is bit `i` of the xor of its data
positions (41_encode.md R106). -/
theorem State.PlanInv.errorSum_encInv {s : State} (h : s.PlanInv) {ports : EncPorts}
    (he : s.EncInv ports) : s.errorSum ports.cw = 0 := by
  refine eq_of_testBit_below (h.errorSum_lt _) (Nat.two_pow_pos s.k) fun i hi => ?_
  have hdata : xorAll (((positions (s.m - s.extended.toNat)).filter fun q => !isPow2 q).map
      fun q => elem ports.cw (q - 1) && q.testBit i) = elem ports.cw (2 ^ i - 1) := by
    rw [filter_positions, h.dataPositions_eq, List.map_map, he.parityBit i hi]
    refine congrArg xorAll (List.map_congr_left fun t ht => ?_)
    simp only [Function.comp_apply, he.dataBit t (List.mem_range.mp ht)]
  rw [State.errorSum, testBit_xorPositions_positions, xorAll_map_filter _ isPow2,
    h.xorAll_parity _ hi, hdata, Bool.xor_self, Nat.zero_testBit]

/-- The xor of all M bits of a codeword with the global bit is 0 (41_encode.md R106). -/
theorem State.PlanInv.xorAll_encInv {s : State} (h : s.PlanInv) {ports : EncPorts}
    (he : s.EncInv ports) (hext : s.extended = true) : xorAll ports.cw = false := by
  have hm := h.m_eq
  have hn := h.extended_row hext
  have hlast : s.m - 1 < ports.cw.length := by
    rw [he.cw_width]
    omega
  have hsplit : ports.cw = ports.cw.take (s.m - 1) ++ [elem ports.cw (s.m - 1)] := by
    rw [elem_eq_getElem hlast, List.take_append_getElem, List.take_of_length_le]
    rw [he.cw_width]
    omega
  rw [hsplit, xorAll_append, ← he.globalBit hext]
  simp

/-! ### A flip -/

/-- A flip adds its position to the positions' xor, unless it is of the global bit
(42_decode.md R127). -/
theorem State.errorSum_flipBit (s : State) {cw : Bits} {j : Nat} (hj : j < cw.length) :
    s.errorSum (flipBit cw j) =
      s.errorSum cw ^^^ (if j < s.m - s.extended.toNat then j + 1 else 0) := by
  refine Nat.eq_of_testBit_eq fun i => ?_
  rw [Nat.testBit_xor]
  unfold State.errorSum
  have hbit : ∀ j', (elem (flipBit cw j) j' && (j' + 1).testBit i) =
      ((decide (j = j') && (j' + 1).testBit i) ^^ (elem cw j' && (j' + 1).testBit i)) :=
    fun j' => by rw [elem_flipBit hj, Bool.and_xor_distrib_right]
  simp only [testBit_xorPositions, hbit]
  rw [xorAll_map_xor, Bool.xor_comm]
  congr 1
  split
  case isTrue hlt =>
    rw [xorAll_map_eq_single List.nodup_range (List.mem_range.mpr hlt)]
    · simp
    · intro j' _ hne
      simp [hne.symm]
  case isFalse hge =>
    rw [xorAll_map_eq_false, Nat.zero_testBit]
    intro j' hj'
    have hne : j ≠ j' := fun heq => hge (heq ▸ List.mem_range.mp hj')
    simp [hne]

/-- A flipped codeword is diagnosed as located at the flip (42_decode.md R131). -/
theorem State.PlanInv.outcome_flipBit {s : State} (h : s.PlanInv) {ports : EncPorts}
    (he : s.EncInv ports) {j : Nat} (hj : j < s.m) :
    s.outcome (s.extended && xorAll (flipBit ports.cw j)) (s.errorSum (flipBit ports.cw j)) =
      (.singleBitCorrectable, j) := by
  have hj' : j < ports.cw.length := he.cw_width.symm ▸ hj
  have hop : (s.extended && xorAll (flipBit ports.cw j)) = s.extended := by
    cases hext : s.extended with
    | false => rfl
    | true => rw [xorAll_flipBit hj', h.xorAll_encInv he hext]; rfl
  rw [hop, s.errorSum_flipBit hj', h.errorSum_encInv he, Nat.zero_xor]
  split
  case isTrue hlt => exact s.outcome_located (Nat.succ_ne_zero j) rfl hlt
  case isFalse hge =>
    cases hext : s.extended with
    | false => simp [hext, hj] at hge
    | true =>
      rw [hext, Bool.toNat_true] at hge
      rw [s.outcome_global, show s.m - 1 = j by omega]

/-- A codeword as it was encoded is diagnosed as clean (42_decode.md R130). -/
theorem State.PlanInv.outcome_encInv {s : State} (h : s.PlanInv) {ports : EncPorts}
    (he : s.EncInv ports) :
    s.outcome (s.extended && xorAll ports.cw) (s.errorSum ports.cw) = (.noError, 0) := by
  have hop : (s.extended && xorAll ports.cw) = false := by
    cases hext : s.extended with
    | false => rfl
    | true => exact h.xorAll_encInv he hext
  rw [hop, h.errorSum_encInv he, s.outcome_clean]

/-! ### CORRECT and EXTRACT -/

/-- The host reads the outcome of the word that was driven. -/
theorem State.PlanInv.read_of_outcome {s : State} (h : s.PlanInv) {ports : DecPorts}
    (hd : s.DecInv ports) {cw : Bits} (hcw : ports.cw = cw) {kind : Kind} {pos : Nat}
    (ho : s.outcome (s.extended && xorAll cw) (s.errorSum cw) = (kind, pos)) :
    ports.read.kind = kind ∧ ports.read.pos = pos := by
  rw [h.read_of_decInv hd, hd.parity, hcw, ho]
  exact ⟨rfl, rfl⟩

/-- CORRECT by the diagnosis undoes the flip, if there is one (42_decode.md R129, R131). -/
theorem State.PlanInv.correctWith_flipBits {s : State} (h : s.PlanInv) {enc : EncPorts}
    {dec : DecPorts} (he : s.EncInv enc) (hd : s.DecInv dec) {flips : List Nat}
    (hcw : dec.cw = flipBits enc.cw flips) (hone : flips.length ≤ 1) (hin : ∀ j ∈ flips, j < s.m) :
    correctWith (flipBits enc.cw flips) dec.read = enc.cw := by
  match flips with
  | [] =>
    obtain ⟨hkind, -⟩ := h.read_of_outcome hd hcw (h.outcome_encInv he)
    rw [flipBits_nil, correctWith_other (by simp [hkind])]
  | [j] =>
    obtain ⟨hkind, hpos⟩ := h.read_of_outcome hd hcw
      (h.outcome_flipBit he (hin j List.mem_cons_self))
    rw [correctWith_located hkind, hpos, flipBits_cons, flipBits_nil, flipBit_flipBit]
  | _ :: _ :: _ => simp at hone

/-- The data positions of a codeword hold its data (30_encoding.md R62, R71). -/
theorem State.EncInv.extractData_eq {s : State} {ports : EncPorts} (he : s.EncInv ports) :
    extractData s.dataLen ports.cw = ports.data := by
  refine bits_ext (by rw [extractData_length, he.data_width]) fun t ht => ?_
  rw [extractData_length] at ht
  rw [elem_extractData _ ht, he.dataBit t ht]

/-- ENCODE of d bits on a ready block completes, drives their codeword, and leaves a ready
block. -/
theorem State.Ready.exec_encode {s : State} (h : s.Ready) {data : Bits}
    (hl : data.length = s.dataLen) :
    ∃ ports, exec (.encode data) s = .next (s.driveEnc ports) ∧ ports.data = data ∧
      s.EncInv ports ∧ (s.driveEnc ports).Ready := by
  have he := h.inv.plan.encInv_codewordOf hl
  exact ⟨_, exec_encode_of_elaborated h.done hl, rfl, he, h.inv.driveEnc h.done he, h.done⟩

/-- Settles O47: the state after ENCODE is ready again, so DECODE locates the flip there, CORRECT
undoes it, and the codeword holds the data. -/
theorem correctionRecoversTheData : Obligations.CorrectionRecoversTheData := by
  intro s data flips hready hl hone hin
  obtain ⟨enc, hencode, rfl, he, hready'⟩ := hready.exec_encode hl
  obtain ⟨dec, hdecode, hcw, hd⟩ :=
    hready'.exec_decode (cw := flipBits enc.cw flips) (by simpa using he.cw_width)
  have hplan := hready'.inv.plan
  have he' := (hready'.inv.enc enc rfl).2
  have hcorrect := hplan.correctWith_flipBits he' hd hcw hone hin
  refine ⟨_, enc, _, dec, hencode, rfl, hdecode, rfl, hcorrect, ?_⟩
  rw [hcorrect, he.extractData_eq]

end Sys2Proof.Machine
end

section
/-!
The script's FLIP, IF, CORRECT and EXTRACT on bound variables (30_encoding.md R71).
-/
namespace Sys2Proof.Machine

/-! ### Reading the variables -/

theorem readVector_eq_ok {vars : List (Var × Value)} {v : Var} {x : Bits} :
    readVector vars v = .ok x ↔ readVar vars v = .ok (.vector x) := by
  unfold readVector
  cases readVar vars v with
  | error why => simp
  | ok value => cases value <;> simp

theorem readVector_bindVar_self (vars : List (Var × Value)) (v : Var) (x : Bits) :
    readVector (bindVar vars v (.vector x)) v = .ok x :=
  readVector_eq_ok.mpr (readVar_bindVar_self ..)

/-! ### Statements -/

section
variable {bench : Bench}

theorem runStmt_ifThen {cond : Cond} {b : Bool} (body : Stmt)
    (h : evalCond bench.vars cond = .ok b) :
    runStmt (.ifThen cond body) bench = if b then runStmt body bench else .ok bench := by
  simp only [runStmt, h, bind, Except.bind]

theorem evalCond_kindIs {r : Var} {diagnosis : Diagnosis} (kind : Kind)
    (h : readRecord bench.vars r = .ok diagnosis) :
    evalCond bench.vars (.kindIs r kind) = .ok (diagnosis.kind == kind) := by
  simp only [evalCond, h, Except.map]

theorem readIndex_posOf {r : Var} {diagnosis : Diagnosis}
    (h : readRecord bench.vars r = .ok diagnosis) :
    readIndex bench.vars (.posOf r) = .ok diagnosis.pos := by
  simp only [readIndex, h, Except.map]

variable {v : Var} {cw : Bits} (hv : readVector bench.vars v = .ok cw)
include hv

/-- FLIP of an element that the vector has binds the vector with that element inverted; of one
that it does not have, it stops (log 15). -/
theorem runStmt_flip {index : Index} {j : Nat} (hj : readIndex bench.vars index = .ok j) :
    runStmt (.flip v index) bench =
      if j < cw.length then
        .ok { bench with vars := bindVar bench.vars v (.vector (flipBit cw j)) }
      else .error (.flipOutside v j) := by
  simp only [runStmt, hv, hj, bind, Except.bind]

theorem runStmt_extract (t : Var) :
    runStmt (.extract t v) bench = .ok
      { bench with
        vars := bindVar bench.vars t (.vector (extractData bench.block.dataLen cw)) } := by
  simp only [runStmt, hv, bind, Except.bind]

/-- CORRECT runs its FLIP when the record is of SingleBitCorrectable. -/
theorem runStmt_correct {r : Var} {diagnosis : Diagnosis}
    (hr : readRecord bench.vars r = .ok diagnosis) :
    runStmt (.correct v r) bench =
      if diagnosis.kind = .singleBitCorrectable then
        if diagnosis.pos < cw.length then
          .ok { bench with vars := bindVar bench.vars v (.vector (flipBit cw diagnosis.pos)) }
        else .error (.flipOutside v diagnosis.pos)
      else .ok bench := by
  rw [Stmt.correct, runStmt_ifThen _ (evalCond_kindIs _ hr), runStmt_flip hv (readIndex_posOf hr)]
  simp only [beq_iff_eq]

end

/-- Settles O52: CORRECT is its FLIP or nothing, by the kind in the record, and a bound variable
is the only thing that a FLIP or an EXTRACT changes. -/
theorem correctAndExtractStatements : Obligations.CorrectAndExtractStatements := by
  intro bench v cw hv
  refine ⟨fun r diagnosis hr => ⟨fun hin => ?completes, fun hkind hout => ?stops⟩,
    fun t => ?extract⟩
  case completes =>
    rw [runStmt_correct hv hr]
    by_cases hkind : diagnosis.kind = .singleBitCorrectable
    · rw [if_pos hkind, if_pos (hin hkind), correctWith_located hkind]
      exact ⟨_, rfl, rfl, readVector_bindVar_self .., fun _ => readVar_bindVar_other _ _⟩
    · rw [if_neg hkind, correctWith_other hkind]
      exact ⟨bench, rfl, rfl, hv, fun _ _ => rfl⟩
  case stops => rw [runStmt_correct hv hr, if_pos hkind, if_neg (Nat.not_lt.mpr hout)]
  case extract =>
    exact ⟨_, runStmt_extract hv t, rfl, readVector_bindVar_self ..,
      fun _ => readVar_bindVar_other _ _⟩

end Sys2Proof.Machine
end

section
/-!
PLAN: the sizes it records (40_construction.md R80 to R83), and what it leaves of the block before.
-/
namespace Sys2Proof.Machine

/-- `2 ^ p − p` does not fall as `p` grows: each parity bit gives at least the position that it
takes. -/
theorem two_pow_add_le {p q : Nat} (h : p ≤ q) : 2 ^ p + q ≤ 2 ^ q + p := by
  induction q, h using Nat.le_induction with
  | base => exact Nat.le_refl _
  | succ q _ ih =>
    have := Nat.two_pow_pos q
    rw [Nat.pow_succ]
    omega

/-- PLAN's P is at most `q` exactly when `q` parity bits are enough (40_construction.md R80). -/
theorem parityCount_le_iff {d q : Nat} : parityCount d ≤ q ↔ d + q + 1 ≤ 2 ^ q := by
  constructor
  · intro h
    have enough := parityCount_enough d
    have grows := two_pow_add_le h
    omega
  · intro h
    by_contra hlt
    exact absurd h (Nat.not_le.mpr (parityCount_least (Nat.lt_of_not_le hlt)))

/-- Settles O10: the plan records PLAN's P, which the search finds least, and the two sums. -/
theorem planFindsTheLeastParityCount : Obligations.PlanFindsTheLeastParityCount := by
  intro s d e hcap
  exact ⟨_, execPlan_eq_next.mpr ⟨hcap, rfl⟩, rfl, rfl, parityCount_enough d,
    fun q => parityCount_le_iff.mpr, rfl, rfl⟩

/-- Settles O11: the planned sizes are those of the invariant. -/
theorem planSyndromeWidthIsSufficient : Obligations.PlanSyndromeWidthIsSufficient := by
  intro s t d e hex
  obtain ⟨hcap, rfl⟩ := execPlan_eq_next.mp hex
  have hplan := planInv_withPlan e hcap
  have hwidth := hplan.m_without_global
  rw [hplan.k_eq_p] at hwidth
  exact ⟨hplan.k_eq, hplan.k_eq_p, hwidth.symm, hplan.m_lt_two_pow⟩

/-- One parity bit is never the least number: it protects no more data than none does
(40_construction.md R83). -/
theorem parityCount_ne_one (d : Nat) : parityCount d ≠ 1 := by
  intro h
  have hone := parityCount_le_iff.mp h.le
  have hzero := mt parityCount_le_iff.mpr (by omega : ¬ parityCount d ≤ 0)
  omega

/-- The data lengths that take `r` parity bits: `r` are enough and `r − 1` are not
(40_construction.md R83). -/
theorem parityCount_eq_of_range {d r : Nat} (hr : 2 ≤ r) (hlow : 2 ^ (r - 1) + 1 ≤ d + r)
    (hhigh : d + r + 1 ≤ 2 ^ r) : parityCount d = r := by
  have hle := parityCount_le_iff.mpr hhigh
  have hgt : ¬ parityCount d ≤ r - 1 := by
    rw [parityCount_le_iff]
    omega
  omega

/-- Settles O13: the planned P is `parityCount d`, which is 0 where no parity bit is needed. -/
theorem planParityCountRanges : Obligations.PlanParityCountRanges := by
  intro s t d e hex
  obtain ⟨_, rfl⟩ := execPlan_eq_next.mp hex
  refine ⟨parityCount_ne_one d, ?_, fun r => parityCount_eq_of_range⟩
  rintro rfl
  rfl

/-- Settles O15: a planned block keeps the cap and the queue of the block before. -/
theorem planFrame : Obligations.PlanFrame := by
  intro s t d e hex
  obtain ⟨_, rfl⟩ := execPlan_eq_next.mp hex
  simp

end Sys2Proof.Machine
end

section
/-!
BUILD_MATRIX: the cells of the matrix (40_construction.md R85, R86) and the syndromes of its
columns (R84, R91).
-/
namespace Sys2Proof.Machine

/-- Bit `i` of the positions, from position 1 on: `2 ^ i - 1` positions without it, and then runs
of `2 ^ i` positions with it and without it in turn (40_construction.md R86). -/
theorem testBit_position_eq_runs (i j : Nat) :
    (j + 1).testBit i = (decide (2 ^ i - 1 ≤ j) && decide ((j - (2 ^ i - 1)) / 2 ^ i % 2 = 0)) := by
  have hpos := Nat.two_pow_pos i
  rw [Nat.testBit_eq_decide_div_mod_eq]
  by_cases h : 2 ^ i - 1 ≤ j
  · have hrun : (j + 1) / 2 ^ i = (j - (2 ^ i - 1)) / 2 ^ i + 1 := by
      rw [← Nat.add_div_right _ hpos]
      congr 1
      omega
    rw [hrun, decide_eq_true h, Bool.true_and, decide_eq_decide]
    omega
  · have hnone : (j + 1) / 2 ^ i = 0 := Nat.div_eq_of_lt (by omega)
    simp [h, hnone]

/-- A cell of a non-extended row outside the global column (40_construction.md R85). -/
theorem State.MatrixInv.cell_eq_testBit {s : State} {mat : ParityMatrix} (hm : s.MatrixInv mat)
    {i j : Nat} (hi : i < s.k) (hj : j < s.m - s.extended.toNat) :
    cell mat i j = (j + 1).testBit i := by
  rw [hm.nonExtended i hi j (by omega), decide_eq_true hj, Bool.true_and]

/-- Settles O16: what BUILD_MATRIX builds is the matrix of the invariant. -/
theorem buildMatrixFillsTheMatrix : Obligations.BuildMatrixFillsTheMatrix := by
  intro s hinv
  have hm := matrixInv_buildMatrix hinv.plan
  refine ⟨_, execBuildMatrix_eq s, hm.rows, hm.columns, fun i hi j hj => ?_, hm.extendedRow⟩
  split
  case isTrue hlt => exact hm.cell_eq_testBit hi hlt
  case isFalse hge => simp [hm.nonExtended i hi j hj, hge]

/-- Settles O17: a cell is a bit of its column's position, and those bits come in runs. -/
theorem buildMatrixRunLengthPattern : Obligations.BuildMatrixRunLengthPattern := by
  intro s hinv
  refine ⟨_, execBuildMatrix_eq s, fun i hi j hj => ?_⟩
  rw [(matrixInv_buildMatrix hinv.plan).cell_eq_testBit hi hj, testBit_position_eq_runs]

section
variable {s : State} (h : s.PlanInv) {mat : ParityMatrix} (hm : s.MatrixInv mat)
include h hm

/-- No column has the syndrome 0, as no position is 0 (40_construction.md R84). -/
theorem State.PlanInv.columnSyndrome_ne_zero {j : Nat} (hj : j < s.m - s.extended.toNat) :
    columnSyndrome mat s.k j ≠ 0 := by
  have := h.m_lt_two_pow
  rw [columnSyndrome_of_matrixInv hm hj, ne_eq, bitrev_eq_zero_iff (by omega)]
  omega

/-- No two columns share a syndrome, as no two share a position (40_construction.md R84). -/
theorem State.PlanInv.columnSyndrome_inj {j j' : Nat} (hj : j < s.m - s.extended.toNat)
    (hj' : j' < s.m - s.extended.toNat)
    (heq : columnSyndrome mat s.k j = columnSyndrome mat s.k j') : j = j' := by
  have := h.m_lt_two_pow
  rw [columnSyndrome_of_matrixInv hm hj, columnSyndrome_of_matrixInv hm hj'] at heq
  exact Nat.succ.inj (bitrev_injective (by omega) (by omega) heq)

end

/-- Settles O18: the syndromes are the reversed positions, which are K-bit numbers. -/
theorem columnSyndromesAreDistinct : Obligations.ColumnSyndromesAreDistinct := by
  intro s mat hinv hmat
  have hm := hinv.matrix mat hmat
  exact ⟨fun q _ hq => hq.trans_lt hinv.plan.m_lt_two_pow,
    fun j hj => ⟨columnSyndrome_of_matrixInv hm hj, hinv.plan.columnSyndrome_ne_zero hm hj⟩,
    fun j hj j' hj' => hinv.plan.columnSyndrome_inj hm hj hj'⟩

end Sys2Proof.Machine
end

section
/-!
BUILD_TABLE: it completes on the configuration's matrix with the configuration's ROM
(40_construction.md R90 to R92), and so no step faults.
-/
namespace Sys2Proof.Machine

/-- BUILD_TABLE completes once the matrix is built (40_construction.md R90, R92). -/
theorem State.Inv.exec_buildTable {s : State} (h : s.Inv) {mat : ParityMatrix}
    (hmat : s.matrix = some mat) :
    ∃ rom, exec .buildTable s = .next (s.withRom rom) ∧ s.RomInv rom := by
  obtain ⟨rom, hok, hr⟩ := h.plan.buildTable_ok (h.matrix mat hmat)
  exact ⟨rom, execBuildTable_eq_next.mpr ⟨mat, rom, hmat, hok, rfl⟩, hr⟩

/-- The entry at a column's syndrome names that column (40_construction.md R90). -/
theorem State.PlanInv.romEntry_columnSyndrome {s : State} (h : s.PlanInv) {mat : ParityMatrix}
    (hm : s.MatrixInv mat) {j : Nat} (hj : j < s.m - s.extended.toNat) :
    s.romEntry (columnSyndrome mat s.k j) = hitEntry j := by
  have := h.m_lt_two_pow
  rw [columnSyndrome_of_matrixInv hm hj, State.romEntry, bitrev_bitrev (by omega),
    if_pos (by omega), Nat.add_sub_cancel]

/-- An address that no column has as its syndrome holds the sentinel (40_construction.md R90). -/
theorem State.MatrixInv.romEntry_of_no_column {s : State} {mat : ParityMatrix}
    (hm : s.MatrixInv mat) {a : Nat} (ha : a < 2 ^ s.k)
    (hno : ∀ j < s.m - s.extended.toNat, columnSyndrome mat s.k j ≠ a) :
    s.romEntry a = sentinel := by
  refine if_neg fun ⟨hpos, hle⟩ => ?_
  have hj : bitrev s.k a - 1 < s.m - s.extended.toNat := by omega
  refine hno _ hj ?_
  rw [columnSyndrome_of_matrixInv hm hj, Nat.sub_add_cancel hpos, bitrev_bitrev ha]

/-- Settles O19: the ROM that BUILD_TABLE fills holds the configuration's entry at each address. -/
theorem buildTableStoresEveryColumn : Obligations.BuildTableStoresEveryColumn := by
  intro s mat hinv hmat
  have hm := hinv.matrix mat hmat
  obtain ⟨rom, hex, hr⟩ := hinv.exec_buildTable hmat
  refine ⟨rom, hex, hr.size, fun j hj => ?column, fun a ha hno => ?other⟩
  case column =>
    rw [hr.entry _ (columnSyndrome_lt ..), hinv.plan.romEntry_columnSyndrome hm hj, hitEntry]
  case other => rw [hr.entry a ha, hm.romEntry_of_no_column ha hno, sentinel]

/-- Settles O20: the closed form is how the invariant writes an entry. -/
theorem buildTableClosedForm : Obligations.BuildTableClosedForm := by
  intro s hinv hbuilt
  obtain ⟨mat, hmat⟩ := Option.isSome_iff_exists.mp hbuilt
  obtain ⟨rom, hex, hr⟩ := hinv.exec_buildTable hmat
  exact ⟨rom, hex, hr.entry⟩

/-- Settles O6: only BUILD_TABLE can fault, and where the invariant holds it completes. -/
theorem noReachableStepFaults : Obligations.NoReachableStepFaults := by
  intro s hinv why hfault
  obtain ⟨rest, -, hex⟩ := step_eq_fault hfault
  obtain ⟨mat, -, hmat, -, -⟩ := execBuildTable_eq_fault.mp hex
  obtain ⟨rom, hnext, -⟩ := (hinv.withPending rest).exec_buildTable hmat
  exact absurd (hnext.symm.trans hex) (by simp)

/-- Settles O49: the two builds are updates of one field. -/
theorem constructionOperationsFrame : Obligations.ConstructionOperationsFrame := by
  refine fun s t => ⟨fun hex => ?matrix, fun hex => ?table⟩
  case matrix =>
    obtain rfl := Host.Outcome.next.inj hex
    simp
  case table =>
    obtain ⟨_, _, _, _, rfl⟩ := execBuildTable_eq_next.mp hex
    simp

end Sys2Proof.Machine
end

section
/-!
Elaboration as a whole: its constants are a function of the configuration alone
(40_construction.md R94), and the ROM of DATA_LEN alone (R93).
-/
namespace Sys2Proof.Machine

/-- The block of a configuration with its constants built, in the place of `s`. -/
def State.withBlock (s : State) (d : Nat) (e : Bool) (rom : Rom) : State :=
  ((s.withPlan d e (planSizes d e)).withMatrix
    (buildMatrix (planSizes d e).n (planSizes d e).k (planSizes d e).m e)).withRom rom

/-- A configuration has a ROM with which elaboration completes from every state that admits it
(40_construction.md R92, R94). -/
theorem exists_rom_elaborate (d : Nat) (e : Bool) :
    ∃ rom, (State.reset.withPlan d e (planSizes d e)).RomInv rom ∧
      ∀ s : State, Config.capAdmits s.maxDataLen d = true →
        elaborate d e s = .next (s.withBlock d e rom) := by
  have hplan := planInv_withPlan (s := State.reset) (d := d) e rfl
  obtain ⟨rom, hok, hr⟩ := hplan.buildTable_ok (matrixInv_buildMatrix hplan)
  exact ⟨rom, hr, fun s hcap => elaborate_eq_next.mpr ⟨hcap, rom, hok, rfl⟩⟩

/-- Settles O25: both runs end in the same sizes, matrix and ROM. -/
theorem constructionIsIdempotent : Obligations.ConstructionIsIdempotent := by
  intro s s' d e hcap hcap'
  obtain ⟨rom, -, hrun⟩ := exists_rom_elaborate d e
  exact ⟨_, _, hrun s hcap, hrun s' hcap', rfl, rfl, rfl, rfl, rfl, rfl, rfl⟩

/-- The ROM reads of the sizes K and M − e alone (40_construction.md R91). -/
theorem State.RomInv.congr {s t : State} {rom : Rom} (h : s.RomInv rom) (hk : t.k = s.k)
    (hlen : t.m - t.extended.toNat = s.m - s.extended.toNat) : t.RomInv rom := by
  obtain ⟨size, entry⟩ := h
  constructor <;> simpa only [State.romEntry, hk, hlen]

/-- Settles O23: K and M − e are the same in both modes, and no more of the mode reaches the
ROM. -/
theorem romDoesNotDependOnExtended : Obligations.RomDoesNotDependOnExtended := by
  intro s s' d hcap hcap'
  obtain ⟨rom, hr, hrun⟩ := exists_rom_elaborate d false
  obtain ⟨rom', hr', hrun'⟩ := exists_rom_elaborate d true
  obtain rfl := hr.unique (hr'.congr (by simp) (by simp))
  refine ⟨_, _, hrun s hcap, hrun' s' hcap', ?_, rfl, rfl⟩
  simp [State.withBlock]

/-- Elaboration reads the cap and the queue of the block before, and nothing else of it (log 4). -/
theorem elaborate_congr {s s' : State} (d : Nat) (e : Bool) (hcap : s.maxDataLen = s'.maxDataLen)
    (hpending : s.pending = s'.pending) : elaborate d e s = elaborate d e s' := by
  have hplan : exec (.plan d e) s = exec (.plan d e) s' := by
    simp only [exec_plan, whenBuildable, State.withPlan, hcap, hpending]
  simp only [elaborate, hplan]

/-- Settles O2: elaborating d = 0, e = 0 on the reset block gives it back, and a block with its
cap and queue elaborates to the same. -/
theorem resetIsTheElaboratedEmptyBlock : Obligations.ResetIsTheElaboratedEmptyBlock := by
  intro s hcap hpending
  exact (elaborate_congr (s' := State.reset) 0 false hcap hpending).trans rfl

end Sys2Proof.Machine
end

section
/-!
ENCODE by its closed forms (41_encode.md R100 to R106): every index of a codeword holds a data bit,
a parity bit or the global bit, and each of the three is a xor of data bits.
-/
namespace Sys2Proof.Machine

/-! ### Xor of vectors -/

/-- A vector is its elements in order. -/
theorem map_elem_range (v : Bits) : (List.range v.length).map (elem v) = v :=
  bits_ext (by simp) fun _ hj => elem_map_range (by simpa using hj)

section
variable {v w : Bits} (hl : v.length = w.length)
include hl

theorem xorBits_length : (xorBits v w).length = v.length := by
  simp [xorBits, hl]

theorem elem_xorBits (j : Nat) : elem (xorBits v w) j = (elem v j ^^ elem w j) := by
  by_cases hj : j < v.length
  · rw [elem_eq_getElem (by rwa [xorBits_length hl]), elem_eq_getElem hj,
      elem_eq_getElem (hl ▸ hj)]
    exact List.getElem_zipWith
  · have hj := Nat.le_of_not_lt hj
    rw [elem_outside (by rwa [xorBits_length hl]), elem_outside hj, elem_outside (hl ▸ hj),
      Bool.xor_false]

theorem xorAll_xorBits : xorAll (xorBits v w) = (xorAll v ^^ xorAll w) := by
  have helems : xorBits v w = (List.range v.length).map fun j => elem v j ^^ elem w j := by
    rw [← funext (elem_xorBits hl), ← xorBits_length hl, map_elem_range]
  rw [helems, xorAll_map_xor, map_elem_range, hl, map_elem_range]

end

theorem elem_replicate_false (n j : Nat) : elem (List.replicate n false) j = false := by
  by_cases hj : j < n
  · rw [elem_eq_getElem (by simpa using hj), List.getElem_replicate]
  · exact elem_outside (by simpa using hj)

/-- The xor of a vector that begins another one, over the positions of its elements. -/
theorem xorAll_take_eq_positions {v : Bits} {n : Nat} (hn : n ≤ v.length) :
    xorAll (v.take n) = xorAll ((positions n).map fun q => elem v (q - 1)) := by
  have htake : v.take n = (List.range n).map (elem v) := by
    conv_lhs => rw [← map_elem_range v]
    rw [← List.map_take, List.take_range, Nat.min_eq_left hn]
  rw [htake, positions, List.map_map]
  rfl

/-- The parity of the ones among the low bits of a number. -/
theorem xorAll_testBit_eq_popcount (k x : Nat) :
    xorAll ((List.range k).map x.testBit) = decide (popcount (natToBits k x) % 2 = 1) := by
  rw [← xorAll_eq_popcount]
  refine congrArg xorAll (bits_ext (by simp) fun i hi => ?_)
  have hi : i < k := by simpa using hi
  rw [elem_map_range hi, elem_natToBits, decide_eq_true hi, Bool.true_and]

/-! ### The three kinds of index -/

/-- Every index of a codeword is that of a data bit, of a parity bit, or of the global bit
(30_encoding.md R61). -/
theorem State.PlanInv.index_cases {s : State} (h : s.PlanInv) {j : Nat} (hj : j < s.m) :
    (∃ t < s.dataLen, j = dataPos t - 1) ∨ (∃ i < s.k, j = 2 ^ i - 1) ∨
      (s.extended = true ∧ j = s.m - 1) := by
  by_cases hlow : j + 1 ≤ s.m - s.extended.toNat
  · cases hp : isPow2 (j + 1) with
    | true =>
      obtain ⟨i, hi, heq⟩ := (h.isPow2_iff_parity hlow).mp hp
      exact .inr (.inl ⟨i, hi, by omega⟩)
    | false =>
      have hmem : j + 1 ∈ dataPositions (s.m - s.extended.toNat) :=
        List.mem_filter.mpr ⟨mem_positions.mpr ⟨by omega, hlow⟩, by simp [hp]⟩
      rw [h.dataPositions_eq, List.mem_map] at hmem
      obtain ⟨t, ht, heq⟩ := hmem
      exact .inl ⟨t, List.mem_range.mp ht, by omega⟩
  · cases he : s.extended with
    | false => simp [he, hj] at hlow
    | true =>
      rw [he, Bool.toNat_true] at hlow
      exact .inr (.inr ⟨rfl, by omega⟩)

/-- The powers of two below the global position, in order (30_encoding.md R61). -/
theorem State.PlanInv.parityPositions_eq {s : State} (h : s.PlanInv) :
    (positions (s.m - s.extended.toNat)).filter isPow2 = (List.range s.k).map (2 ^ ·) := by
  have hpositions : (positions (s.m - s.extended.toNat)).Pairwise (· < ·) :=
    List.pairwise_lt_range.map _ fun _ _ => Nat.succ_lt_succ
  have hpowers : ((List.range s.k).map (2 ^ ·)).Pairwise (· < ·) :=
    List.pairwise_lt_range.map _ fun _ _ => Nat.pow_lt_pow_right (by decide)
  refine (hpositions.filter _).eq_of_mem_iff hpowers fun {q} => ?_
  simp only [List.mem_filter, mem_positions, List.mem_map, List.mem_range]
  constructor
  · rintro ⟨⟨-, hle⟩, hp⟩
    obtain ⟨i, hi, rfl⟩ := (h.isPow2_iff_parity hle).mp hp
    exact ⟨i, hi, rfl⟩
  · rintro ⟨i, hi, rfl⟩
    exact ⟨⟨Nat.one_le_two_pow, h.two_pow_le hi⟩, (isPow2_iff _).mpr ⟨i, rfl⟩⟩

/-- The mask to K bits changes no data position (41_encode.md R101). -/
theorem State.PlanInv.dataPos_lt_two_pow {s : State} (h : s.PlanInv) {t : Nat}
    (ht : t < s.dataLen) : dataPos t < 2 ^ s.k :=
  (h.dataPos_le ht).trans_lt h.m_lt_two_pow

/-! ### Parity bits and the global bit -/

/-- A parity bit is its bit of the xor of the positions of the data bits that are 1, masked to K
bits (41_encode.md R101, R102). -/
theorem State.EncInv.parityBit_eq_testBit_masked {s : State} {ports : EncPorts}
    (he : s.EncInv ports) {i : Nat} (hi : i < s.k) :
    elem ports.cw (2 ^ i - 1) =
      ((List.range s.dataLen).foldl
        (fun acc t => if elem ports.data t then acc ^^^ (dataPos t % 2 ^ s.k) else acc)
        0).testBit i := by
  rw [he.parityBit i hi, testBit_foldl_xor]
  simp [Nat.testBit_mod_two_pow, hi]

/-- A parity bit is its bit of the accumulator in the closed form (41_encode.md R104). -/
theorem State.EncInv.parityBit_eq_testBit {s : State} {ports : EncPorts} (he : s.EncInv ports)
    {i : Nat} (hi : i < s.k) :
    elem ports.cw (2 ^ i - 1) =
      ((List.range s.dataLen).foldl
        (fun acc t => if elem ports.data t then acc ^^^ dataPos t else acc) 0).testBit i := by
  rw [he.parityBit i hi, testBit_foldl_xor, Nat.zero_testBit, Bool.false_xor]

/-- The global bit is the xor of the data bits and the parity bits (41_encode.md R103). -/
theorem State.PlanInv.globalBit_eq {s : State} (h : s.PlanInv) {ports : EncPorts}
    (he : s.EncInv ports) (hext : s.extended = true) :
    elem ports.cw (s.m - 1) =
      (xorAll ports.data ^^ xorAll ((List.range s.k).map fun i => elem ports.cw (2 ^ i - 1))) := by
  have hdata : (List.range s.dataLen).map (fun t => elem ports.cw (dataPos t - 1)) =
      ports.data := by
    conv_rhs => rw [← map_elem_range ports.data, he.data_width]
    exact List.map_congr_left fun t ht => he.dataBit t (List.mem_range.mp ht)
  have hlow : s.m - s.extended.toNat = s.m - 1 := by rw [hext, Bool.toNat_true]
  rw [he.globalBit hext, xorAll_take_eq_positions (by rw [he.cw_width]; omega), ← hlow,
    xorAll_map_filter _ isPow2, h.parityPositions_eq, filter_positions, h.dataPositions_eq,
    List.map_map, List.map_map, Bool.xor_comm]
  exact congrArg (xorAll · ^^ _) hdata

/-- What ENCODE drives is the codeword of its input. -/
theorem State.Ready.encInv_of_exec {s t : State} (h : s.Ready) {data : Bits} {ports : EncPorts}
    (hex : exec (.encode data) s = .next t) (hports : t.enc = some ports) :
    ports.data = data ∧ s.EncInv ports := by
  obtain ⟨-, hl, rfl⟩ := execEncode_eq_next.mp hex
  obtain rfl := Option.some.inj hports
  exact ⟨rfl, h.inv.plan.encInv_codewordOf hl⟩

/-- Settles O31: a ready block drives the codeword of the invariant, whose parity bits read the
same in the masked accumulator. -/
theorem encodePlacesDataParityAndGlobalBits :
    Obligations.EncodePlacesDataParityAndGlobalBits := by
  intro s data hready hl
  obtain ⟨⟨_, cw⟩, hex, rfl, he, -⟩ := hready.exec_encode hl
  exact ⟨cw, hex, he.cw_width, he.dataBit,
    fun t ht => Nat.mod_eq_of_lt (hready.inv.plan.dataPos_lt_two_pow ht),
    fun i => he.parityBit_eq_testBit_masked, he.globalBit⟩

/-- Settles O32: the parity bits in the global bit's xor are the accumulator's K bits. -/
theorem encodeClosedForms : Obligations.EncodeClosedForms := by
  intro s t data ports hready hex hports
  obtain ⟨rfl, he⟩ := hready.encInv_of_exec hex hports
  refine ⟨he.parityBit, fun hext => ?_⟩
  rw [hready.inv.plan.globalBit_eq he hext, ← xorAll_testBit_eq_popcount]
  exact congrArg (_ ^^ xorAll ·)
    (List.map_congr_left fun i hi => he.parityBit_eq_testBit (List.mem_range.mp hi))

/-- Settles O34: a row's check is a bit of the positions' xor, which is 0 for a codeword, and the
global bit makes the total even. -/
theorem encodedWordPassesEveryCheck : Obligations.EncodedWordPassesEveryCheck := by
  intro s t mat data ports hready hmat hex hports
  obtain ⟨-, he⟩ := hready.encInv_of_exec hex hports
  refine ⟨fun i hi => ?_, hready.inv.plan.xorAll_encInv he⟩
  have hcheck := (hready.inv.matrix mat hmat).rowCheck_eq hi ports.cw
  rwa [hready.inv.plan.errorSum_encInv he, Nat.zero_testBit] at hcheck

/-! ### Linearity -/

/-- A data value has one codeword. -/
theorem State.PlanInv.codeword_unique {s : State} (h : s.PlanInv) {data cw cw' : Bits}
    (he : s.EncInv ⟨data, cw⟩) (he' : s.EncInv ⟨data, cw'⟩) : cw = cw' := by
  have hparity : ∀ i < s.k, elem cw (2 ^ i - 1) = elem cw' (2 ^ i - 1) :=
    fun i hi => (he.parityBit i hi).trans (he'.parityBit i hi).symm
  refine bits_ext (he.cw_width.trans he'.cw_width.symm) fun j hj => ?_
  obtain ⟨t, ht, rfl⟩ | ⟨i, hi, rfl⟩ | ⟨hext, rfl⟩ := h.index_cases (he.cw_width ▸ hj)
  · exact (he.dataBit t ht).trans (he'.dataBit t ht).symm
  · exact hparity i hi
  · refine (h.globalBit_eq he hext).trans (Eq.trans ?_ (h.globalBit_eq he' hext).symm)
    exact congrArg (_ ^^ xorAll ·)
      (List.map_congr_left fun i hi => hparity i (List.mem_range.mp hi))

/-- The xor of two codewords is the codeword of the xor of their data (41_encode.md R105). -/
theorem State.EncInv.xor {s : State} {a b ca cb : Bits} (ha : s.EncInv ⟨a, ca⟩)
    (hb : s.EncInv ⟨b, cb⟩) : s.EncInv ⟨xorBits a b, xorBits ca cb⟩ := by
  have hdata : a.length = b.length := ha.data_width.trans hb.data_width.symm
  have hcw : ca.length = cb.length := ha.cw_width.trans hb.cw_width.symm
  constructor
  case data_width => exact (xorBits_length hdata).trans ha.data_width
  case cw_width => exact (xorBits_length hcw).trans ha.cw_width
  case dataBit =>
    intro t ht
    dsimp only
    rw [elem_xorBits hcw, elem_xorBits hdata, ← ha.dataBit t ht, ← hb.dataBit t ht]
  case parityBit =>
    intro i hi
    simp only [elem_xorBits hcw, elem_xorBits hdata, Bool.and_xor_distrib_right, xorAll_map_xor]
    exact congrArg₂ Bool.xor (ha.parityBit i hi) (hb.parityBit i hi)
  case globalBit =>
    intro hext
    have htake : (xorBits ca cb).take (s.m - 1) =
        xorBits (ca.take (s.m - 1)) (cb.take (s.m - 1)) := List.take_zipWith
    dsimp only
    rw [elem_xorBits hcw, htake, xorAll_xorBits (by simp [hcw])]
    exact congrArg₂ Bool.xor (ha.globalBit hext) (hb.globalBit hext)

/-- The codeword of 0 is 0 (41_encode.md R105). -/
theorem State.encInv_zero (s : State) :
    s.EncInv ⟨List.replicate s.dataLen false, List.replicate s.m false⟩ := by
  constructor
  case data_width => simp
  case cw_width => simp
  case dataBit => simp [elem_replicate_false]
  case parityBit =>
    intro i _
    simp only [elem_replicate_false, Bool.false_and]
    exact (xorAll_map_eq_false fun _ _ => rfl).symm
  case globalBit =>
    intro _
    dsimp only
    rw [elem_replicate_false, xorAll_take_eq_positions (by simp)]
    exact (xorAll_map_eq_false fun _ _ => elem_replicate_false ..).symm

/-- Settles O33: the xor of codewords and the zero word meet the closed forms, which leave a data
value one codeword; and a codeword holds its data. -/
theorem encodeIsLinearAndInjective : Obligations.EncodeIsLinearAndInjective := by
  intro s a b hready hla hlb
  have hplan := hready.inv.plan
  obtain ⟨⟨_, ca⟩, hexa, rfl, ha, -⟩ := hready.exec_encode hla
  obtain ⟨⟨_, cb⟩, hexb, rfl, hb, -⟩ := hready.exec_encode hlb
  obtain ⟨⟨_, cx⟩, hexx, rfl, hx, -⟩ := hready.exec_encode (ha.xor hb).data_width
  obtain ⟨⟨_, cz⟩, hexz, rfl, hz, -⟩ := hready.exec_encode s.encInv_zero.data_width
  refine ⟨ca, cb, cx, cz, hexa, hexb, hexx, hexz, hplan.codeword_unique hx (ha.xor hb),
    hplan.codeword_unique hz s.encInv_zero, fun heq => ?_⟩
  subst heq
  exact ha.extractData_eq.symm.trans hb.extractData_eq

end Sys2Proof.Machine
end

section
/-!
DECODE by its cases, on any elaborated block: the checks it drives (42_decode.md R120, R121) and
their classification (42_decode.md R122 to R125).
-/
namespace Sys2Proof.Machine

/-- The overall parity is the xor of all bits with the extended bit, and 0 without it
(42_decode.md R121). -/
theorem overallParity_eq_ite (e : Bool) (cw : Bits) :
    overallParity e cw = if e then xorAll cw else false := by
  cases e <;> rfl

theorem extended_of_overallParity {e : Bool} {cw : Bits} (h : overallParity e cw = true) :
    e = true :=
  (Bool.and_eq_true_iff.mp h).1

/-! ### CLASSIFY in both modes -/

theorem classify_noError (rom : Rom) (m : Nat) (e : Bool) :
    classify rom m e false 0 = (.noError, 0) := by
  cases e with
  | false => exact classify_plain rom m false 0
  | true => exact classify_clean rom m

/-- A non-zero syndrome reaches LOOKUP unless the extended bit shows an even number of flips
(42_decode.md R122, R124). -/
theorem classify_lookup {rom : Rom} {m syn : Nat} {e op : Bool} (hsyn : syn ≠ 0)
    (hop : e = true → op = true) : classify rom m e op syn = lookup rom syn := by
  cases e with
  | false => rw [classify_plain, if_neg hsyn]
  | true => rw [hop rfl, classify_odd hsyn]

/-- What DECODE drives is the code and the position of its classification (42_decode.md R125). -/
theorem diagnose_of_classify {mat : ParityMatrix} {rom : Rom} {k m posW syn pos : Nat}
    {e op : Bool} {cw : Bits} {kind : Kind} (hsyn : syndrome mat k m cw = syn)
    (hop : overallParity e cw = op) (hc : classify rom m e op syn = (kind, pos)) :
    (diagnose mat rom k m posW e cw).kind = kind.code ∧
      (diagnose mat rom k m posW e cw).pos = natToBits posW pos := by
  rw [diagnose_kind, diagnose_pos, hsyn, hop, hc]
  exact ⟨rfl, rfl⟩

/-- Settles O35: the syndrome's bits are the row checks, row 0 most significant. -/
theorem decodeComputesSyndromeAndParity : Obligations.DecodeComputesSyndromeAndParity := by
  intro s mat rom cw hm hr hl
  refine ⟨_, exec_decode_of_built hm hr hl, rfl, natToBits_length _ _, fun i hi => ?_,
    overallParity_eq_ite _ _⟩
  have hin : s.k - 1 - i < s.k := by omega
  rw [diagnose_syndrome, elem_natToBits, testBit_syndrome cw hi, decide_eq_true hin,
    Bool.true_and]
  rfl

/-- Settles O36: each row of CLASSIFY and LOOKUP, read on the ports. -/
theorem decodeClassifies : Obligations.DecodeClassifies := by
  intro s mat rom cw hm hr hl
  refine ⟨_, exec_decode_of_built hm hr hl, bitsToNat_diagnose_syndrome .., rfl, ?_⟩
  rw [bitsToNat_diagnose_syndrome, diagnose_overallParity]
  refine ⟨fun hsyn hop => ?clean, fun hsyn hop => ?global, fun hsyn he hop => ?even,
    fun hsyn hop hhit => ?hit, fun hsyn hop hmiss => ?miss⟩
  case clean => exact diagnose_of_classify hsyn hop (classify_noError rom s.m s.extended)
  case global =>
    refine diagnose_of_classify hsyn hop ?_
    rw [extended_of_overallParity hop, classify_global]
  case even => exact diagnose_of_classify rfl hop (by rw [he, classify_even hsyn])
  case hit =>
    exact diagnose_of_classify rfl rfl (by rw [classify_lookup hsyn hop, lookup_hit hhit])
  case miss =>
    exact diagnose_of_classify rfl rfl (by rw [classify_lookup hsyn hop, lookup_miss hmiss])

/-- Settles O39: on a ready block the port holds the reversed positions' xor, which has K bits. -/
theorem decodeSyndromeClosedForm : Obligations.DecodeSyndromeClosedForm := by
  intro s cw hready hl
  obtain ⟨ports, hex, rfl, hd⟩ := hready.exec_decode hl
  refine ⟨ports, hex, ?_⟩
  rw [hd.syndrome, bitsToNat_natToBits_of_lt (bitrev_lt _ _)]
  rfl

end Sys2Proof.Machine
end

section
/-!
The diagnosis of a codeword with any flips: it depends on the flips alone (42_decode.md R127,
R128), and what it is for none, one and two of them (42_decode.md R130 to R133).
-/
namespace Sys2Proof.Machine

/-! ### The positions' xor of a set of flips -/

/-- The xor of the positions of the flips outside the global column (42_decode.md R127). -/
def State.flipSum (s : State) (flips : List Nat) : Nat :=
  (flips.filter fun j => decide (j < s.m - s.extended.toNat)).foldl
    (fun sum j => sum ^^^ (j + 1)) 0

@[simp] theorem State.flipSum_nil (s : State) : s.flipSum [] = 0 := rfl

/-- What a sum of positions starts from can be added last. -/
theorem foldl_xor_positions (js : List Nat) (a : Nat) :
    js.foldl (fun sum j => sum ^^^ (j + 1)) a =
      a ^^^ js.foldl (fun sum j => sum ^^^ (j + 1)) 0 := by
  induction js generalizing a with
  | nil => simp
  | cons j js ih =>
    rw [List.foldl_cons, List.foldl_cons, ih, ih (0 ^^^ _), Nat.zero_xor, Nat.xor_assoc]

/-- A further flip adds its position, unless it is of the global bit. -/
theorem State.flipSum_cons (s : State) (j : Nat) (flips : List Nat) :
    s.flipSum (j :: flips) =
      (if j < s.m - s.extended.toNat then j + 1 else 0) ^^^ s.flipSum flips := by
  unfold State.flipSum
  split
  case isTrue hj =>
    rw [List.filter_cons_of_pos (by simpa using hj), List.foldl_cons, foldl_xor_positions,
      Nat.zero_xor]
  case isFalse hj => rw [List.filter_cons_of_neg (by simpa using hj), Nat.zero_xor]

/-- Every flip adds its position to the positions' xor (42_decode.md R127). -/
theorem State.errorSum_flipBits (s : State) {cw : Bits} {flips : List Nat}
    (hin : ∀ j ∈ flips, j < cw.length) :
    s.errorSum (flipBits cw flips) = s.errorSum cw ^^^ s.flipSum flips := by
  induction flips generalizing cw with
  | nil => simp
  | cons j flips ih =>
    obtain ⟨hj, hrest⟩ := List.forall_mem_cons.mp hin
    rw [flipBits_cons, ih (by simpa using hrest), s.errorSum_flipBit hj, s.flipSum_cons,
      Nat.xor_assoc]

/-- Every flip inverts the xor of all bits. -/
theorem xorAll_flipBits {cw : Bits} {flips : List Nat} (hin : ∀ j ∈ flips, j < cw.length) :
    xorAll (flipBits cw flips) = (xorAll cw ^^ decide (flips.length % 2 = 1)) := by
  induction flips generalizing cw with
  | nil => simp
  | cons j flips ih =>
    obtain ⟨hj, hrest⟩ := List.forall_mem_cons.mp hin
    have hodd : decide ((j :: flips).length % 2 = 1) = !decide (flips.length % 2 = 1) := by
      rw [List.length_cons, ← decide_not, decide_eq_decide]
      omega
    rw [flipBits_cons, ih (by simpa using hrest), xorAll_flipBit hj, hodd, Bool.not_xor,
      Bool.xor_not]

/-! ### A codeword with flips -/

section
variable {s : State} (h : s.PlanInv) {enc : EncPorts} (he : s.EncInv enc) {flips : List Nat}
  (hin : ∀ j ∈ flips, j < s.m)
include h he hin

/-- A codeword's own positions' xor is 0, so the flips' is left (42_decode.md R127). -/
theorem State.PlanInv.errorSum_encoded_flipBits :
    s.errorSum (flipBits enc.cw flips) = s.flipSum flips := by
  rw [s.errorSum_flipBits (by rwa [he.cw_width]), h.errorSum_encInv he, Nat.zero_xor]

/-- With the extended bit a codeword's own parity is even, so the flips' parity is left
(42_decode.md R127). -/
theorem State.PlanInv.parity_encoded_flipBits :
    (s.extended && xorAll (flipBits enc.cw flips)) =
      (s.extended && decide (flips.length % 2 = 1)) := by
  cases hext : s.extended with
  | false => rfl
  | true =>
    rw [xorAll_flipBits (by rwa [he.cw_width]), h.xorAll_encInv he hext, Bool.false_xor]

/-- What the host reads for a codeword with flips is the outcome of the flips alone
(42_decode.md R128). -/
theorem State.PlanInv.read_encoded_flipBits {dec : DecPorts} (hd : s.DecInv dec)
    (hcw : dec.cw = flipBits enc.cw flips) :
    dec.read =
      { kind := (s.outcome (s.extended && decide (flips.length % 2 = 1)) (s.flipSum flips)).1
        pos := (s.outcome (s.extended && decide (flips.length % 2 = 1)) (s.flipSum flips)).2
        syn := bitrev s.k (s.flipSum flips)
        op := s.extended && decide (flips.length % 2 = 1) } := by
  rw [h.read_of_decInv hd, hd.parity, hcw, h.errorSum_encoded_flipBits he hin,
    h.parity_encoded_flipBits he hin]

end

theorem State.SameSizes.symm {s t : State} (c : s.SameSizes t) : t.SameSizes s :=
  ⟨c.dataLen.symm, c.extended.symm, c.maxDataLen.symm, c.p.symm, c.n.symm, c.m.symm, c.k.symm,
    c.posW.symm⟩

/-- On a ready block ENCODE completes, and so does DECODE of its codeword with any flips; the
decoder's outputs are the diagnosis of that word. -/
theorem State.Ready.exec_encode_decode {s : State} (h : s.Ready) {data : Bits}
    (hl : data.length = s.dataLen) (flips : List Nat) :
    ∃ enc dec, exec (.encode data) s = .next (s.driveEnc enc) ∧ s.EncInv enc ∧
      exec (.decode (flipBits enc.cw flips)) (s.driveEnc enc) =
        .next ((s.driveEnc enc).driveDec dec) ∧
      s.DecInv dec ∧ dec.cw = flipBits enc.cw flips := by
  obtain ⟨enc, hencode, -, he, hready⟩ := h.exec_encode hl
  obtain ⟨dec, hdecode, hcw, hd⟩ :=
    hready.exec_decode (cw := flipBits enc.cw flips) (by simpa using he.cw_width)
  exact ⟨enc, dec, hencode, he, hdecode, (sameSizes_driveEnc s enc).symm.decInv hd, hcw⟩

/-- Settles O41: the codeword's own checks are 0, so the flips' positions and their number are
left; an index flipped twice would cancel in both, so that the flips are distinct is not needed. -/
theorem diagnosisByErrorPattern : Obligations.DiagnosisByErrorPattern := by
  intro s s₁ data enc flips hready hex henc _ hin
  obtain ⟨-, hl, -⟩ := execEncode_eq_next.mp hex
  obtain ⟨enc', dec, hencode, he, hdecode, hd, hcw⟩ := hready.exec_encode_decode hl flips
  cases hencode.symm.trans hex
  cases henc
  refine ⟨_, dec, hdecode, rfl, ?_⟩
  rw [hready.inv.plan.read_encoded_flipBits he hin hd hcw]
  exact ⟨rfl, rfl, rfl⟩

/-- Settles O42: a codeword's positions' xor and parity are 0, whose outcome is NoError. -/
theorem roundTripGivesNoError : Obligations.RoundTripGivesNoError := by
  intro s data hready hl
  obtain ⟨enc, dec, hencode, he, hdecode, hd, hcw⟩ := hready.exec_encode_decode hl []
  refine ⟨_, enc, _, dec, hencode, rfl, hdecode, rfl, ?_⟩
  rw [hready.inv.plan.read_encoded_flipBits he (by simp) hd hcw]
  simp [s.outcome_clean]

/-- Settles O43: the positions' xor of one flip is its position, or 0 with an odd parity for the
global bit. -/
theorem singleFlipIsLocated : Obligations.SingleFlipIsLocated := by
  intro s data j hready hl hj
  obtain ⟨enc, dec, hencode, he, hdecode, hd, hcw⟩ := hready.exec_encode_decode hl [j]
  exact ⟨_, enc, _, dec, hencode, rfl, hdecode, rfl, hready.inv.plan.read_of_outcome hd hcw
    (hready.inv.plan.outcome_flipBit he hj)⟩

/-! ### Two flips -/

section
variable {s : State} {i j : Nat} (hi : i < s.m) (hj : j < s.m) (hne : i ≠ j)
include hi hj

/-- Without the global column both positions count. -/
theorem State.flipSum_pair_of_plain (hext : s.extended = false) :
    s.flipSum [i, j] = (i + 1) ^^^ (j + 1) := by
  rw [s.flipSum_cons, s.flipSum_cons, State.flipSum_nil, Nat.xor_zero, hext, Bool.toNat_false,
    Nat.sub_zero, if_pos hi, if_pos hj]

include hne

/-- Two distinct flips never cancel: the global column hides at most one of them
(42_decode.md R132, R133). -/
theorem State.flipSum_pair_ne_zero : s.flipSum [i, j] ≠ 0 := by
  have hone := Bool.toNat_le s.extended
  rw [s.flipSum_cons, s.flipSum_cons, State.flipSum_nil, Nat.xor_zero, Nat.xor_ne_zero_iff]
  split_ifs <;> omega

/-- With the extended bit two flips leave the parity even and the positions' xor non-zero
(42_decode.md R132). -/
theorem State.outcome_flip_pair_of_extended (hext : s.extended = true) :
    s.outcome false (s.flipSum [i, j]) = (.doubleBitDetected, 0) :=
  State.outcome_even (State.flipSum_pair_ne_zero hi hj hne) hext

/-- Without the extended bit the positions' xor of two flips is no position, or the position of
neither, since no position is 0 (42_decode.md R133). -/
theorem State.outcome_flip_pair_of_plain (hext : s.extended = false) :
    (∃ pos, s.outcome false (s.flipSum [i, j]) = (.singleBitCorrectable, pos) ∧
      pos ≠ i ∧ pos ≠ j) ∨ s.outcome false (s.flipSum [i, j]) = (.indeterminate, 0) := by
  have hx := State.flipSum_pair_ne_zero hi hj hne
  by_cases hle : s.flipSum [i, j] ≤ s.m - s.extended.toNat
  · refine .inl ⟨_, State.outcome_located hx hext.symm hle, ?_⟩
    have hni : s.flipSum [i, j] ≠ i + 1 := by
      rw [State.flipSum_pair_of_plain hi hj hext, ne_eq, xor_left_eq_self_iff]
      exact Nat.succ_ne_zero j
    have hnj : s.flipSum [i, j] ≠ j + 1 := by
      rw [State.flipSum_pair_of_plain hi hj hext, ne_eq, xor_right_eq_self_iff]
      exact Nat.succ_ne_zero i
    omega
  · exact .inr (State.outcome_miss hx hext.symm (Nat.lt_of_not_le hle))

end

/-- Settles O44: the parity of two flips is even and their positions' xor is not 0. -/
theorem doubleFlipIsDetected : Obligations.DoubleFlipIsDetected := by
  intro s data i j hready hext hl hi hj hne
  obtain ⟨enc, dec, hencode, he, hdecode, hd, hcw⟩ := hready.exec_encode_decode hl [i, j]
  refine ⟨_, enc, _, dec, hencode, rfl, hdecode, rfl, ?_⟩
  rw [hready.inv.plan.read_encoded_flipBits he (by simp [hi, hj]) hd hcw]
  simp [State.outcome_flip_pair_of_extended hi hj hne hext]

/-- Settles O45: two positions' xor is neither 0 nor one of them. -/
theorem twoFlipsWithoutExtendedBit : Obligations.TwoFlipsWithoutExtendedBit := by
  intro s data i j hready hext hl hi hj hne
  obtain ⟨enc, dec, hencode, he, hdecode, hd, hcw⟩ := hready.exec_encode_decode hl [i, j]
  refine ⟨_, enc, _, dec, hencode, rfl, hdecode, rfl, ?_⟩
  rw [hready.inv.plan.read_encoded_flipBits he (by simp [hi, hj]) hd hcw, hext, Bool.false_and]
  obtain ⟨pos, ho, hpos⟩ | ho := State.outcome_flip_pair_of_plain hi hj hne hext
  · rw [ho]
    exact .inl ⟨rfl, hpos⟩
  · rw [ho]
    exact .inr rfl

end Sys2Proof.Machine
end

section
/-!
The one exception of the block: BUILD_TABLE on any matrix ends at the first failing check
(60_exceptions.md R151, R156).
-/
namespace Sys2Proof.Machine

theorem tableColumn_of_zero {h : ParityMatrix} {k j : Nat} (rom : Rom)
    (hz : columnSyndrome h k j = 0) : tableColumn h k rom j = .error (.syndromeZero j) := by
  rw [tableColumn_eq, if_pos hz]

/-- A syndrome that an earlier column has taken fails the duplicate check, which names both
columns (60_exceptions.md R151). -/
theorem tableColumn_of_taken {h : ParityMatrix} {k j i : Nat} {rom : Rom}
    (hz : columnSyndrome h k j ≠ 0) (hentry : romRead rom (columnSyndrome h k j) = hitEntry i) :
    tableColumn h k rom j = .error (.syndromeDup j i (columnSyndrome h k j)) := by
  rw [tableColumn_eq, if_neg hz, hentry]
  rfl

/-- The first column that fails ends the table, whatever columns follow (60_exceptions.md R156). -/
theorem tableColumns_range_eq_error {h : ParityMatrix} {k j n : Nat} {rom rom' : Rom}
    {cause : ConfigurationCause} (hj : j < n)
    (hbefore : tableColumns h k (List.range j) rom = .ok rom')
    (hfail : tableColumn h k rom' j = .error cause) :
    tableColumns h k (List.range n) rom = .error cause := by
  have hupto : tableColumns h k (List.range (j + 1)) rom = .error cause := by
    simp [List.range_succ, tableColumns_append, hbefore, tableColumns, hfail]
  obtain ⟨r, rfl⟩ := Nat.exists_eq_add_of_le hj
  rw [List.range_add, tableColumns_append, hupto]

/-- Once the columns before it have passed, a failing column is BUILD_TABLE's fault
(60_exceptions.md R151). -/
theorem exec_buildTable_eq_fault {s : State} {h : ParityMatrix} {j : Nat} {rom : Rom}
    {cause : ConfigurationCause} (hmat : s.matrix = some h)
    (hj : j < s.m - s.extended.toNat)
    (hbefore : tableColumns h s.k (List.range j) (List.replicate (2 ^ s.k) sentinel) = .ok rom)
    (hfail : tableColumn h s.k rom j = .error cause) :
    exec .buildTable s = .fault (.configurationFault cause) :=
  execBuildTable_eq_fault.mpr
    ⟨h, cause, hmat, tableColumns_range_eq_error hj hbefore hfail, rfl⟩

/-- Columns with distinct, non-zero syndromes pass from the empty table on, and each has its
entry. -/
theorem tableColumns_range_ok {h : ParityMatrix} {k j : Nat}
    (hzero : ∀ i < j, columnSyndrome h k i ≠ 0)
    (hdist : ∀ i < j, ∀ i' < i, columnSyndrome h k i' ≠ columnSyndrome h k i) :
    ∃ rom, tableColumns h k (List.range j) (List.replicate (2 ^ k) sentinel) = .ok rom ∧
      ∀ i < j, romRead rom (columnSyndrome h k i) = hitEntry i := by
  have hpairs : (List.range j).Pairwise fun i' i => columnSyndrome h k i' ≠ columnSyndrome h k i :=
    List.pairwise_lt_range.imp_of_mem fun _ hi hlt => hdist _ (List.mem_range.mp hi) _ hlt
  obtain ⟨rom, hok, -, hhit, -⟩ := tableColumns_ok (List.range j)
    (List.replicate (2 ^ k) sentinel) List.length_replicate (by simpa using hzero)
    (fun i _ => by rw [romRead_replicate]; rfl) hpairs
  exact ⟨rom, hok, by simpa using hhit⟩

/-- Settles O21: the columns before column j fill the table with their entries, so column j fails
at the zero check, or at the duplicate check on the entry it meets. -/
theorem buildTableRaisesTheFirstFailingCheck :
    Obligations.BuildTableRaisesTheFirstFailingCheck := by
  intro s h j hmat hj hzero hdist
  obtain ⟨rom, hbefore, hhit⟩ := tableColumns_range_ok hzero hdist
  refine ⟨columnSyndrome_lt h s.k j, fun hz => ?zero, fun i hi hnz hdup => ?duplicate⟩
  case zero => exact exec_buildTable_eq_fault hmat hj hbefore (tableColumn_of_zero rom hz)
  case duplicate =>
    have hentry : romRead rom (columnSyndrome h s.k j) = hitEntry i := hdup ▸ hhit i hi
    exact exec_buildTable_eq_fault hmat hj hbefore (tableColumn_of_taken hnz hentry)

end Sys2Proof.Machine
end

section
/-!
The boundary to the ports: a vector of another length than its port's is refused there
(60_exceptions.md R153).
-/
namespace Sys2Proof.Machine

theorem whenShape_of_length_ne {v : Bits} {w : Nat} (k : Result) (h : v.length ≠ w) :
    whenShape v w k = .refused (.inputShape v.length w) := if_neg h

section
variable {s : State} {v : Bits} (hdone : s.elaborated = true)
include hdone

theorem exec_encode_of_length_ne (hl : v.length ≠ s.dataLen) :
    exec (.encode v) s = .refused (.inputShape v.length s.dataLen) := by
  obtain ⟨mat, rom, hm, hr⟩ := elaborated_iff.mp hdone
  exact (whenElaborated_of_built _ hm hr).trans (whenShape_of_length_ne _ hl)

theorem exec_decode_of_length_ne (hl : v.length ≠ s.m) :
    exec (.decode v) s = .refused (.inputShape v.length s.m) := by
  obtain ⟨mat, rom, hm, hr⟩ := elaborated_iff.mp hdone
  exact (whenElaborated_of_built _ hm hr).trans (whenShape_of_length_ne _ hl)

end

/-- Settles O28: on an elaborated block the length is the only check left, and it is what
well-formedness at the ports says. -/
theorem wrongLengthIsRefusedAtThePort : Obligations.WrongLengthIsRefusedAtThePort := by
  intro s v hdone
  obtain ⟨mat, rom, hm, hr⟩ := elaborated_iff.mp hdone
  exact ⟨fun hl => exec_encode_of_length_ne hdone (beq_eq_false_iff_ne.mp hl),
    fun hl => exec_decode_of_length_ne hdone (beq_eq_false_iff_ne.mp hl),
    fun hl => ⟨_, exec_encode_of_elaborated hdone (beq_iff_eq.mp hl)⟩,
    fun hl => ⟨_, exec_decode_of_built hm hr (beq_iff_eq.mp hl)⟩⟩

end Sys2Proof.Machine
end

section
/-!
What the block owes to every input of the harness's contract (60_exceptions.md R160).
-/
namespace Sys2Proof.Machine

/-- Two flips are within the contract only with the extended bit (60_exceptions.md R160). -/
theorem State.contractAllows_pair {s : State} {i j : Nat} (h : s.contractAllows [i, j]) :
    s.extended = true ∧ i < s.m ∧ j < s.m ∧ i ≠ j := by
  obtain ⟨hnodup, hin, hlen⟩ := h
  refine ⟨?_, hin i (by simp), hin j (by simp), by simpa using hnodup⟩
  cases hext : s.extended with
  | true => rfl
  | false => simp [hext] at hlen

/-- No flip set of the contract has more than two indices (60_exceptions.md R160). -/
theorem State.not_contractAllows_of_two_lt {s : State} {flips : List Nat}
    (h : 2 < flips.length) : ¬ s.contractAllows flips := by
  rintro ⟨-, -, hlen⟩
  have := Bool.toNat_le s.extended
  omega

/-- Settles O46: the contract allows no flip, one flip, or two with the extended bit, and these are
the round trip (42_decode.md R130), the single flip (R131) and the double flip (R132). -/
theorem hostContractIsMet : Obligations.HostContractIsMet := by
  intro s data flips hready hl hallowed
  match flips, hallowed with
  | [], _ =>
    obtain ⟨s₁, enc, s₂, ports, hencode, henc, hdecode, hdec, hread⟩ :=
      roundTripGivesNoError s data hready hl
    exact ⟨s₁, enc, s₂, ports, hencode, henc, hdecode, hdec, by simp [hread]⟩
  | [j], ⟨_, hin, _⟩ =>
    obtain ⟨s₁, enc, s₂, ports, hencode, henc, hdecode, hdec, hkind, hpos⟩ :=
      singleFlipIsLocated s data j hready hl (hin j List.mem_cons_self)
    exact ⟨s₁, enc, s₂, ports, hencode, henc, hdecode, hdec, by simp [hkind, hpos]⟩
  | [i, j], hallowed =>
    obtain ⟨hext, hi, hj, hne⟩ := State.contractAllows_pair hallowed
    obtain ⟨s₁, enc, s₂, ports, hencode, henc, hdecode, hdec, hkind⟩ :=
      doubleFlipIsDetected s data i j hready hext hl hi hj hne
    exact ⟨s₁, enc, s₂, ports, hencode, henc, hdecode, hdec, by simp [hkind]⟩
  | _ :: _ :: _ :: _, hallowed =>
    exact absurd hallowed (State.not_contractAllows_of_two_lt (by simp))

end Sys2Proof.Machine
end

section
/-!
The order of the operations: elaboration completes from any state (70_reset_and_hazards.md R173),
what comes before it is refused, and what comes after it drives one side of the ports (R176).
-/
namespace Sys2Proof.Machine

/-! ### Elaboration in order -/

/-- A block with its constants built is elaborated. -/
theorem withBlock_elaborated (s : State) (d : Nat) (e : Bool) (rom : Rom) :
    (s.withBlock d e rom).elaborated = true :=
  elaborated_iff.mpr ⟨_, rom, rfl, rfl⟩

/-- Settles O24: elaboration answers the configuration's block in place of `s`, whose plan takes
the cap and the queue over and drives nothing. -/
theorem elaborationGivesAReadyBlock : Obligations.ElaborationGivesAReadyBlock := by
  intro s d e hcap
  obtain ⟨rom, -, hrun⟩ := exists_rom_elaborate d e
  have hready : (s.withBlock d e rom).Ready :=
    ⟨inv_of_elaborate (hrun s hcap), withBlock_elaborated s d e rom⟩
  exact ⟨_, hrun s hcap, hready, by simp [State.withBlock]⟩

/-! ### Operations out of order -/

theorem whenMatrixBuilt_not {s : State} (k : ParityMatrix → Result) (h : s.matrix = none) :
    whenMatrixBuilt s k = .refused .matrixNotBuilt := by
  simp [whenMatrixBuilt, h]

/-- Settles O27: each of the three opens with the check for what it needs built, and ends there
whatever would have followed. -/
theorem operationsOutOfOrderAreRefused : Obligations.OperationsOutOfOrderAreRefused :=
  ⟨fun _ _ hnot => ⟨whenElaborated_not _ hnot, whenElaborated_not _ hnot⟩,
    fun _ hnone => whenMatrixBuilt_not _ hnone⟩

/-! ### Run-time operations -/

/-- Settles O48: ENCODE and DECODE answer the block with one side driven, each its own. -/
theorem runTimeOperationsFrame : Obligations.RunTimeOperationsFrame := by
  refine fun s t v => ⟨fun hex => ?encode, fun hex => ?decode⟩
  case encode =>
    obtain ⟨-, -, rfl⟩ := execEncode_eq_next.mp hex
    exact ⟨sameConstants_driveEnc s _, by simp⟩
  case decode =>
    obtain ⟨_, _, -, -, -, rfl⟩ := execDecode_eq_next.mp hex
    exact ⟨sameConstants_driveDec s _, by simp⟩

end Sys2Proof.Machine
end
